-- ==== Sys2Proof/Word.lean ====
section
/-! DEFINITION. The byte and the 32-bit word (spec/00_scope.md R10), and a run of four bytes in transmission order. -/

namespace Sys2Proof

/-- A byte, an unsigned integer 0 to 255 (R10). -/
abbrev Byte := BitVec 8

/-- A 32-bit unsigned value: tag, transfer length, residue, width, height (R8, R10). -/
abbrev Word := BitVec 32

/-- Four bytes in transmission order: a wrapper's signature (R67, R90, R96). -/
structure Quad where
  b0 : Byte
  b1 : Byte
  b2 : Byte
  b3 : Byte
  deriving DecidableEq, Repr

/-- The four bytes, first transmitted first. -/
def Quad.bytes (q : Quad) : List Byte := [q.b0, q.b1, q.b2, q.b3]

end Sys2Proof
end

