-- ==== Sys2Proof/Syntax.lean ====
section
/-! DEFINITION. The instructions: one constructor per row of spec/opcode_table.json, and the records in which they are
presented to the blocks (spec/30_encoding.md). -/

namespace Sys2Proof

/-- The order of a typed value's fields, `enc` of R104. -/
inductive Enc where
  | be
  | le
  deriving DecidableEq, Repr

/-- The seven fields of a command wrapper (R90, R93). -/
structure CbwRecord where
  signature      : Quad
  tag            : Word
  transferLength : Word
  flags          : Byte
  lun            : Byte
  commandLength  : Byte
  command        : List Byte
  deriving DecidableEq, Repr

/-- The four fields of a status wrapper (R96, R97). -/
structure CswRecord where
  signature : Quad
  tag       : Word
  residue   : Word
  status    : Byte
  deriving DecidableEq, Repr

/-- The instructions of spec/opcode_table.json, in the table's order. -/
inductive Instr where
  /-- CBW (R90): the command wrapper goes out on EP_OUT. -/
  | cbw (r : CbwRecord)
  /-- CSW (R96): the status wrapper arrives on EP_IN. -/
  | csw (r : CswRecord)
  /-- READ_COMMAND (R150). -/
  | readCommand (enc : Enc) (cmd : List Byte) (shape : List Nat)
  /-- WRITE_COMMAND (R155). -/
  | writeCommand (enc : Enc) (cmd : List Byte) (shape : List Nat) (value : List Nat) (extra : List Byte)
  /-- WRITE_COMMAND_RAW (R158). -/
  | writeCommandRaw (cmd : List Byte) (data : List Byte)
  /-- BTFE_RESERVED (R108), with the free bit 2 of its head. -/
  | btfeReserved (e : Bool)
  /-- MATRIX_INIT (R171). -/
  | matrixInit
  /-- LOOK_UP (R173). -/
  | lookUp (x y : Word)
  /-- DITHER_AND_PACK (R176). -/
  | ditherAndPack (width height : Word)
  /-- ODPP_RESERVED (R108). -/
  | odppReserved
  /-- FETCH_TAG (R130), internal. -/
  | fetchTag
  /-- ENCODE_VALUE (R133), internal. -/
  | encodeValue (shape : List Nat) (enc : Enc) (value : List Nat)
  /-- DECODE_VALUE (R134), internal. -/
  | decodeValue (shape : List Nat) (enc : Enc) (buf : List Byte)
  /-- STATUS_HANDSHAKE (R140), internal. -/
  | statusHandshake
  deriving DecidableEq, Repr

/-- A request record at the BTFE port, `{OPSEL, ENC, CMD, SHAPE, VALUE, EXTRA}` with OPSEL and ENC in the head (R105). -/
structure BtfeRequest where
  head  : Byte
  cmd   : List Byte
  shape : List Nat
  value : List Nat
  extra : List Byte
  deriving DecidableEq, Repr

/-- A request record at the ODPP port, `{OPSEL, WIDTH, HEIGHT, X, Y}` with OPSEL in the head (R106). -/
structure OdppRequest where
  head   : Byte
  width  : Word
  height : Word
  x      : Word
  y      : Word
  deriving DecidableEq, Repr

/-- Everything this hardware encodes or decodes (R107): a record at either request port, or bytes on the wire. -/
inductive Encoded where
  | btfe (q : BtfeRequest)
  | odpp (q : OdppRequest)
  | wire (bytes : List Byte)
  deriving DecidableEq, Repr

/-- Why the decoder rejects: each reason is one illegal encoding of R108, or a wire record of no known length. -/
inductive DecodeError where
  /-- A head with a reserved bit set: bits 7:3 at the BTFE port, 7:2 at the ODPP port (R108). -/
  | reservedHeadBits
  /-- ENC = 1 with WRITE_COMMAND_RAW (R105, R108). -/
  | encWithRaw
  /-- A byte sequence that is neither 31 nor 13 bytes long (R93, R97). -/
  | recordLength (n : Nat)
  deriving DecidableEq, Repr

end Sys2Proof
end

