-- ==== Sys2Proof/Decode.lean ====
section
/-! DEFINITION. Byte orders, the wire records and the request heads: decoder and encoder (spec/00_scope.md R11,
spec/30_encoding.md R90 to R114). -/

namespace Sys2Proof

/-! ### Byte orders (R11) -/

/-- `le_w(v)`: w bytes, least significant first (R11). -/
def leBytes : Nat → Nat → List Byte
  | 0, _ => []
  | w + 1, v => BitVec.ofNat 8 v :: leBytes w (v / 256)

/-- `be_w(v)`: w bytes, most significant first (R11). -/
def beBytes (w v : Nat) : List Byte := (leBytes w v).reverse

/-- `unle_w(b)` (R11). -/
def unleBytes : List Byte → Nat
  | [] => 0
  | b :: t => b.toNat + 256 * unleBytes t

/-- `unbe_w(b)` (R11). -/
def unbeBytes (b : List Byte) : Nat := unleBytes b.reverse

/-- `le32(v)` (R11). -/
def le32 (v : Word) : List Byte := leBytes 4 v.toNat

/-- `unle32(b)` (R11). -/
def unle32 (b : List Byte) : Word := BitVec.ofNat 32 (unleBytes b)

/-- `s[a .. a+n-1]` (R11). -/
def slice (s : List Byte) (a n : Nat) : List Byte := (s.drop a).take n

/-- Four bytes as a signature; only called on four bytes. -/
def quadOf (b : List Byte) : Quad := ⟨b.getD 0 0, b.getD 1 0, b.getD 2 0, b.getD 3 0⟩

/-! ### The wire records -/

/-- CBW_LEN, CSW_LEN, CMD_LEN (R8). -/
def cbwLen : Nat := 31
def cswLen : Nat := 13
def cmdLen : Nat := 16

/-- The seven fields in the order of R90. -/
def cbwBytes (r : CbwRecord) : List Byte :=
  r.signature.bytes ++ (le32 r.tag ++ (le32 r.transferLength ++ (r.flags :: r.lun :: r.commandLength :: r.command)))

/-- The fields `EncodeCBW` sends (R92): flag bits 6:0 zero, lun 0, command length 16 (R91, R109). -/
def cbwOf (sig : Quad) (tag xlen : Word) (dir : Bool) (cmd : List Byte) : CbwRecord where
  signature := sig
  tag := tag
  transferLength := xlen
  flags := if dir then 0x80 else 0x00
  lun := 0x00
  commandLength := 0x10
  command := cmd

/-- `EncodeCBW(tag, xlen, dir, cmd)` (R92), the signature being the parameter CBW_SIGNATURE. -/
def encodeCbw (sig : Quad) (tag xlen : Word) (dir : Bool) (cmd : List Byte) : List Byte :=
  cbwBytes (cbwOf sig tag xlen dir cmd)

/-- `DecodeCBW(b)` on 31 bytes: field extraction, nothing is checked (R93). -/
def cbwFields (b : List Byte) : CbwRecord where
  signature := quadOf (slice b 0 4)
  tag := unle32 (slice b 4 4)
  transferLength := unle32 (slice b 8 4)
  flags := b.getD 12 0
  lun := b.getD 13 0
  commandLength := b.getD 14 0
  command := slice b 15 16

/-- `EncodeCSW(sig, tag, residue, status)` (R98). -/
def cswBytes (r : CswRecord) : List Byte :=
  r.signature.bytes ++ (le32 r.tag ++ (le32 r.residue ++ [r.status]))

/-- `DecodeCSW(b)` on 13 bytes (R97). -/
def cswFields (b : List Byte) : CswRecord where
  signature := quadOf (slice b 0 4)
  tag := unle32 (slice b 4 4)
  residue := unle32 (slice b 8 4)
  status := b.getD 12 0

/-- A wire record is known by its length alone (R110): 31 bytes a command wrapper, 13 a status wrapper. -/
def decodeWire (b : List Byte) : Except DecodeError Instr :=
  if b.length = cbwLen then .ok (.cbw (cbwFields b))
  else if b.length = cswLen then .ok (.csw (cswFields b))
  else .error (.recordLength b.length)

/-! ### What makes a request ill-encoded, beside its head (R104, R108) -/

/-- A CMD is exactly 16 bytes (R108). -/
def cmdOk (cmd : List Byte) : Bool := cmd.length == cmdLen

/-- A value shape: every field width is at least 1 (R104). DEDUCED that a width of 0 makes a request ill-encoded, log 28. -/
def shapeOk (shape : List Nat) : Bool := shape.all (fun w => decide (1 ≤ w))

/-- `sizeof(shape)` (R104). -/
def shapeSize (shape : List Nat) : Nat := shape.foldr (· + ·) 0

/-- A value of a shape: one unsigned integer below 2^(8 w) for each field width w (R104). -/
def valueFits : List Nat → List Nat → Bool
  | [], [] => true
  | w :: ws, v :: vs => decide (v < 2 ^ (8 * w)) && valueFits ws vs
  | _, _ => false

/-! ### The request heads (R105, R106) -/

/-- ENC, bit 2 of a BTFE head: 0 = BE, 1 = LE (R105). -/
def encOfBit (e : Bool) : Enc := if e then .le else .be

/-- The bit ENC stands for (R105). -/
def bitOfEnc : Enc → Bool
  | .be => false
  | .le => true

/-- The decoder of the BTFE port (R105, R108). -/
def decodeBtfe (q : BtfeRequest) : Except DecodeError Instr :=
  if q.head.extractLsb' 3 5 ≠ 0 then .error .reservedHeadBits
  else if q.head.extractLsb' 0 2 = 0 then .ok (.readCommand (encOfBit (q.head.getLsbD 2)) q.cmd q.shape)
  else if q.head.extractLsb' 0 2 = 1 then
    .ok (.writeCommand (encOfBit (q.head.getLsbD 2)) q.cmd q.shape q.value q.extra)
  else if q.head.extractLsb' 0 2 = 2 then
    if q.head.getLsbD 2 then .error .encWithRaw else .ok (.writeCommandRaw q.cmd q.extra)
  else .ok (.btfeReserved (q.head.getLsbD 2))

/-- The decoder of the ODPP port (R106, R108). -/
def decodeOdpp (q : OdppRequest) : Except DecodeError Instr :=
  if q.head.extractLsb' 2 6 ≠ 0 then .error .reservedHeadBits
  else if q.head.extractLsb' 0 2 = 0 then .ok .matrixInit
  else if q.head.extractLsb' 0 2 = 1 then .ok (.lookUp q.x q.y)
  else if q.head.extractLsb' 0 2 = 2 then .ok (.ditherAndPack q.width q.height)
  else .ok .odppReserved

/-- The decoder: total, rejecting by name (R107). -/
def decode : Encoded → Except DecodeError Instr
  | .btfe q => decodeBtfe q
  | .odpp q => decodeOdpp q
  | .wire b => decodeWire b

/-- The head byte of a BTFE request: OPSEL in bits 1:0, ENC in bit 2 (R105). -/
def btfeHead (opsel : BitVec 2) (e : Bool) : Byte := (0 : BitVec 5) ++ (BitVec.ofBool e ++ opsel)

/-- The head byte of an ODPP request: OPSEL in bits 1:0 (R106). -/
def odppHead (opsel : BitVec 2) : Byte := (0 : BitVec 6) ++ opsel

/-- The encoder; the internal actions have no encoding (R107, R114). An operand an operation does not use is empty or 0. -/
def encode : Instr → Option Encoded
  | .cbw r => some (.wire (cbwBytes r))
  | .csw r => some (.wire (cswBytes r))
  | .readCommand enc cmd shape => some (.btfe ⟨btfeHead 0 (bitOfEnc enc), cmd, shape, [], []⟩)
  | .writeCommand enc cmd shape value extra => some (.btfe ⟨btfeHead 1 (bitOfEnc enc), cmd, shape, value, extra⟩)
  | .writeCommandRaw cmd data => some (.btfe ⟨btfeHead 2 false, cmd, [], [], data⟩)
  | .btfeReserved e => some (.btfe ⟨btfeHead 3 e, [], [], [], []⟩)
  | .matrixInit => some (.odpp ⟨odppHead 0, 0, 0, 0, 0⟩)
  | .lookUp x y => some (.odpp ⟨odppHead 1, 0, 0, x, y⟩)
  | .ditherAndPack w h => some (.odpp ⟨odppHead 2, w, h, 0, 0⟩)
  | .odppReserved => some (.odpp ⟨odppHead 3, 0, 0, 0, 0⟩)
  | .fetchTag => none
  | .encodeValue _ _ _ => none
  | .decodeValue _ _ _ => none
  | .statusHandshake => none

/-! ### Words as the opcode table numbers them (R114) -/

/-- What a table word is laid out as. A table word's first character, bit 7 of byte 0, is its most significant bit (R114),
so a record of n bytes is `be_n(w)`. DESIGN CHOICE, log 10: an 8-bit word is a head at the BTFE port, because the table
gives the two ports the same heads and the word does not say which. Operands above the word are zero: a command of 16
zero bytes, no field, no byte of data. Log 11. -/
def tableLayout (nbits w : Nat) : Option Encoded :=
  if nbits = 8 then some (.btfe ⟨BitVec.ofNat 8 w, List.replicate 16 0, [], [], []⟩)
  else if nbits = 248 then some (.wire (beBytes 31 w))
  else if nbits = 104 then some (.wire (beBytes 13 w))
  else none

/-- The instruction the decoder reads from a table word. -/
def decodeTableWord (nbits w : Nat) : Option Instr :=
  match tableLayout nbits w with
  | some e => (decode e).toOption
  | none => none

end Sys2Proof
end

