-- ==== Sys2Proof/Config.lean ====
section
/-! DEFINITION. What an implementation fixes for the life of the hardware (spec/00_scope.md R8, 10_state.md R30, R31).
The parameters a rule reads are plain data, kept in State as read-only fields, so that every statement holds for every
value of them. The parameters no rule looks inside are constants with no body. -/

namespace Sys2Proof

/-- The configuration of one BTFE instance (R30): hardwired, read-only to every agent, unchanged by reset. -/
structure BtfeConfig where
  cbwSignature      : Quad
  cswSignature      : Quad
  /-- EP_OUT, an opaque identifier (93_implementation_defined.md U11). -/
  epOut             : Nat
  /-- EP_IN, an opaque identifier (U11). -/
  epIn              : Nat
  /-- RETRY_LIMIT: `none` is the unbounded default (R8, D7). -/
  retryLimit        : Option Nat
  checkCswTag       : Bool
  checkCswSignature : Bool
  checkCswStatus    : Bool
  deriving DecidableEq, Repr

/-- The configuration of the ODPP (R8, R31): MATRIX_SIDE = 2 ^ sideLog2, so that it is a power of two by form; the
parameter table, row by row; whether the table is ROM. -/
structure OdppConfig where
  sideLog2 : Nat
  table    : List Byte
  rom      : Bool
  deriving DecidableEq, Repr

/-- MATRIX_SIDE (R8, R31). -/
def OdppConfig.side (c : OdppConfig) : Nat := 2 ^ c.sideLog2

/-- EP_OUT: "addresses fixed by the device's USB descriptor", no value in the spec (R8, R76). Log 25. -/
opaque Config.epOut : Nat
/-- EP_IN: as EP_OUT. Log 25. -/
opaque Config.epIn : Nat
/-- TIMEOUT: open, and no rule depends on it (R8, R228). Log 36. -/
opaque Config.timeout : Nat
/-- MAX_TRANSFER: a parameter of the requester, not seen by the engine (R8, D14). Log 36. -/
opaque Config.maxTransfer : Nat
/-- What the bits of a byte of PACKED are that nothing has written, a free value (20_memory.md R65, U34). Log 17. -/
opaque Config.unwrittenByte : Nat → Byte

end Sys2Proof
end

