-- ==== Sys2Proof/Machine/Defaults.lean ====
section
/-! DEFINITION. The default values of the parameters (spec/00_scope.md R8) and the default generator of the threshold
table (spec/41_dither_pack.md R172). The spec marks the signatures and the generator as general knowledge (G1, G2). -/

namespace Sys2Proof.Machine

/-- The `2k`-bit rank of R172, built by "bit-interleaving pixel coordinates": bit i of `a = x xor y` goes to place `2i`
of w and bit i of `b = y` to place `2i+1`, and the rank is the reversal of w. So the pair of bit i lands at places
`2(k-1-i)+1` and `2(k-1-i)`; the recursion takes the bits from 0 up, each pair shifted below the last. -/
def bayerRank : Nat → Nat → Nat → Nat → Nat
  | 0, _, _, acc => acc
  | k + 1, x, y, acc => bayerRank k (x / 2) (y / 2) (acc * 4 + ((x + y) % 2) * 2 + y % 2)

/-- The default table of R172, row by row: `THRESH[y][x] = (rank * 256) div side^2`. -/
def bayerTable (k : Nat) : List Byte :=
  (List.range (4 ^ k)).map fun a => BitVec.ofNat 8 (bayerRank k (a % 2 ^ k) (a / 2 ^ k) 0 * 256 / 4 ^ k)

/-- The defaults of R8 for a BTFE instance: signatures `55 53 42 43` and `55 53 42 53` (log 24), no retry limit, no check
of a received status wrapper (D6, D7); the endpoints have no value (log 25). -/
def btfeDefault : BtfeConfig where
  cbwSignature := ⟨0x55, 0x53, 0x42, 0x43⟩
  cswSignature := ⟨0x55, 0x53, 0x42, 0x53⟩
  epOut := Config.epOut
  epIn := Config.epIn
  retryLimit := none
  checkCswTag := false
  checkCswSignature := false
  checkCswStatus := false

/-- DESIGN CHOICE, log 26: side 2 with the table R172 gives for it; not ROM (log 27). R8 leaves both open. -/
def odppDefault : OdppConfig where
  sideLog2 := 1
  table := bayerTable 1
  rom := false

end Sys2Proof.Machine
end

