-- ==== Sys2Proof/Machine/State.lean ====
section
/-! DEFINITION. The state of the two blocks (spec/10_state.md R20 to R38), of the ports to the outside, and the machine
right after reset. Everything is plain data. -/

namespace Sys2Proof.Machine

/-! ### Memory (spec/20_memory.md R60) -/

/-- A byte memory: the bytes that hold a value, by strictly rising address. A byte that is not listed has no value
(R35, R38, U34 to U36), log 19. -/
abbrev Memory := List Host.Cell

/-- The canonical form: addresses strictly rising. (No entry equals what an unlisted address reads as: that is `none`.) -/
abbrev Memory.wf (m : Memory) : Prop := m.Pairwise (fun c d => c.1 < d.1)

/-! ### The port primitives' answers (spec/00_scope.md R14) -/

/-- A transport error kind (60_exceptions.md R212). -/
inductive ErrKind where
  | timeout
  | disconnect
  | stall
  | other
  deriving DecidableEq, Repr

/-- What `BulkOut` returns (R14 a). -/
inductive OutAnswer where
  | ok
  | stall
  | err (k : ErrKind)
  deriving DecidableEq, Repr

/-- What `BulkIn` returns (R14 b). -/
inductive InAnswer where
  | data (bytes : List Byte)
  | stall
  | err (k : ErrKind)
  deriving DecidableEq, Repr

/-- What `ClearHalt` returns (R14 c). -/
inductive ClearAnswer where
  | ok
  | err (k : ErrKind)
  deriving DecidableEq, Repr

/-- One line of the event trace: a port call with its arguments and its result (R16). -/
inductive PortCall where
  | bulkOut (ep : Nat) (bytes : List Byte) (a : OutAnswer)
  | bulkIn (ep : Nat) (n : Nat) (a : InAnswer)
  | clearHalt (ep : Nat) (a : ClearAnswer)
  deriving DecidableEq, Repr

/-! ### What a requester receives -/

/-- Why the BTFE refuses a request (R217). -/
inductive BtfeRefusal where
  | busy
  | faulted
  | badEncoding
  | lengthOverflow
  deriving DecidableEq, Repr

/-- Why the ODPP refuses a request (R217). -/
inductive OdppRefusal where
  | busy
  | notReady
  | badDimensions
  | badEncoding
  deriving DecidableEq, Repr

/-- What the requester of a BTFE instance receives: the end of an operation (R162, R197), a refusal (R217), or the
registers it read (R28, R29, R233). -/
inductive BtfeReply where
  | okValue (v : List Nat)
  | okUnit
  | transportError (k : ErrKind)
  | protocolError
  | refused (r : BtfeRefusal)
  | cswRegisters (sig : Quad) (tag residue : Word) (status : Byte)
  /-- A read of the CSW registers while CSW_VALID = 0: refused, no value is given (R28, U32), log 22. -/
  | cswNoValue
  | errRegister (e : Byte)
  deriving DecidableEq, Repr

/-- What the requester of the ODPP receives (R197). -/
inductive OdppReply where
  | initDone
  | threshold (b : Byte)
  | packed (bytes : List Byte)
  | refused (r : OdppRefusal)
  | packedByte (b : Byte)
  deriving DecidableEq, Repr

/-! ### The BTFE -/

/-- The sequencer's eight values (R24). -/
inductive Phase where
  | idle
  | tag
  | cbwOut
  | dataIn
  | dataOut
  | decode
  | cswIn
  | clearHalt
  deriving DecidableEq, Repr

/-- The registers of one BTFE instance (R23 to R30), and four working variables of the operation in progress that the
spec does not call state (log 12; what they hold after the operation: log 5). -/
structure Btfe where
  /-- CMD[0..15] (R23). -/
  cmd        : List Byte
  /-- XLEN (R23). -/
  xlen       : Word
  /-- DIR: true = 1, device to host (R23). -/
  dir        : Bool
  /-- TAG (R23). -/
  tag        : Word
  /-- PHASE (R24). -/
  phase      : Phase
  /-- CBWBUF[0..30] (R26). -/
  cbwbuf     : List Byte
  /-- CSWBUF[0..12] (R26). -/
  cswbuf     : List Byte
  /-- DBUF (R26, R63). -/
  dbuf       : List Byte
  /-- FAULT (R27 b). -/
  fault      : Bool
  /-- CSW_VALID (R27 c, R28). -/
  cswValid   : Bool
  /-- CSW_SIG[0..3] (R28). -/
  cswSig     : Quad
  /-- CSW_TAG (R28). -/
  cswTag     : Word
  /-- CSW_RESIDUE (R28). -/
  cswResidue : Word
  /-- CSW_STATUS (R28). -/
  cswStatus  : Byte
  /-- ERR_KIND, bits 1:0 of the error register (R29, R211). -/
  errKind    : BitVec 2
  /-- ERR_SUB, bits 4:2 (R29, R212). -/
  errSub     : BitVec 3
  /-- ERR_PHASE, bits 7:5 (R29). -/
  errPhase   : BitVec 3
  /-- The configuration (R30), read-only. -/
  cfg        : BtfeConfig
  /-- The operand SHAPE of the read in progress (R21, R150); the model's own field. -/
  shape      : List Nat
  /-- The operand ENC of the read in progress (R21, R150); the model's own field. -/
  enc        : Enc
  /-- The local `v` of R150; the model's own field. -/
  value      : List Nat
  /-- The local `rounds` of R140; the model's own field. -/
  rounds     : Nat
  deriving DecidableEq, Repr

/-- The outside of one BTFE instance: the answers the environment gives to the calls still to come, in order (R14, R199,
log 6), the event trace (R16), and what the requester has received, both in order (log 31). The model's own fields. -/
structure Port where
  outAns   : List OutAnswer
  inAns    : List InAnswer
  clearAns : List ClearAnswer
  trace    : List PortCall
  replies  : List BtfeReply
  deriving DecidableEq, Repr

/-- One session: a BTFE instance and its outside. -/
structure Session where
  btfe : Btfe
  port : Port
  deriving DecidableEq, Repr

/-! ### The ODPP -/

/-- The ODPP (R31 to R35). -/
structure Odpp where
  /-- THRESH, entry (r, c) at address r * MATRIX_SIDE + c (R31, R66, R84 d). -/
  thresh      : Memory
  /-- MATRIX_READY (R31). -/
  matrixReady : Bool
  /-- WIDTH (R32). -/
  width       : Word
  /-- HEIGHT (R32). -/
  height      : Word
  /-- PIX (R33). -/
  pix         : BitVec 64
  /-- ODPP_BUSY (R33). -/
  busy        : Bool
  /-- GRAY (R35, R64). -/
  gray        : Memory
  /-- PACKED (R35, R65). -/
  packed      : Memory
  /-- MATRIX_SIDE, the parameter table, ROM or not (R8, R31), read-only. -/
  cfg         : OdppConfig
  deriving DecidableEq, Repr

/-! ### The machine -/

/-- What the outside may do (spec/42_boundary_host.md R197, R240, R233, R81), one event a step. The turns say which agent
moves where the outside does nothing else (log 8, log 15). -/
inductive Input where
  /-- A request record at the BTFE port of the current session (R105). -/
  | btfeRequest (q : BtfeRequest)
  /-- A request record at the ODPP port (R106). -/
  | odppRequest (q : OdppRequest)
  /-- The current BTFE instance takes its next step (R20, R24). -/
  | btfeTurn
  /-- The ODPP takes its next step (R33). -/
  | odppTurn
  /-- The turn goes to the next session (R81, R230). -/
  | nextSession
  /-- Global reset (R240 a). -/
  | globalReset
  /-- Session reset of the current instance (R240 b). -/
  | sessionReset
  /-- The requester hands over a frame in GRAY (R64, R83). -/
  | loadGray (bytes : List Byte)
  /-- The requester reads the CSW registers (R28, R197). -/
  | readCsw
  /-- The requester reads the error register (R29, R233). -/
  | readErr
  /-- The requester reads the byte of PACKED at an address (R65, R83). -/
  | readPacked (a : Nat)
  deriving DecidableEq, Repr

/-- The machine. `tagctr`, the session's and the ODPP's registers are the spec's state; the rest is the outside. -/
structure State where
  /-- TAGCTR, one for all BTFE instances (R22). -/
  tagctr      : Word
  /-- The session that may move. -/
  cur         : Session
  /-- The other sessions, next first (R81, R230); none by default (NUM_SESSIONS = 1, R8). -/
  parked      : List Session
  odpp        : Odpp
  /-- What the requester of the ODPP has received, in order (log 31). -/
  odppReplies : List OdppReply
  /-- The outside events still to come, in order (log 8). -/
  inbox       : List Input
  deriving DecidableEq, Repr

/-- Why the machine stops. No instruction stops on every path. -/
inductive Fault where
  /-- GRAY written while ODPP_BUSY = 1: a race, the requester's duty broken (R83, R257, U39). Raised by an outside event.
  Safe: the spec makes no claim about the output. Log 21. -/
  | grayRace
  /-- PACKED read while ODPP_BUSY = 1: a race (R83, R257, U39). Raised by an outside event. Safe. Log 21. -/
  | packedRace
  /-- A read of a byte of PACKED that holds no value (R38, U34). Raised by an outside event. Safe. Log 19. -/
  | packedUnwritten (a : Nat)
  /-- The pixel step reads a byte of GRAY that holds no value: only in states no run reaches, since acceptance asks for a
  whole frame (R175). Safe. Log 19. -/
  | grayUnwritten (a : Nat)
  /-- A look-up reads an entry of THRESH that holds no value: only in states no run reaches, since MATRIX_INIT writes all
  of them (R171). Safe. Log 19. -/
  | thresholdUnwritten (a : Nat)
  deriving DecidableEq, Repr

/-- Why an instruction has no meaning. -/
inductive Refusal where
  /-- Raised by an arm of exec that is not modelled yet; no arm is. Safe. -/
  | notModelled (mnemonic : String)
  deriving DecidableEq, Repr

/-! ### Reset (R38, R240 a, R244) -/

/-- A BTFE instance after reset. The spec gives PHASE, FAULT, CSW_VALID and ERR_*; the rest is unspecified there and
zero or empty here (DESIGN CHOICE, logs 1, 2, 3, 12). The configuration is unchanged by reset (R30). -/
def Btfe.reset (c : BtfeConfig) : Btfe where
  cmd := List.replicate 16 0
  xlen := 0
  dir := false
  tag := 0
  phase := .idle
  cbwbuf := List.replicate 31 0
  cswbuf := List.replicate 13 0
  dbuf := []
  fault := false
  cswValid := false
  cswSig := ⟨0, 0, 0, 0⟩
  cswTag := 0
  cswResidue := 0
  cswStatus := 0
  errKind := 0
  errSub := 0
  errPhase := 0
  cfg := c
  shape := []
  enc := .be
  value := []
  rounds := 0

/-- The machine right after power-on reset: TAGCTR 1 (R22), one session, nothing in the memories, nothing from outside. -/
def State.reset : State where
  tagctr := 1
  cur := { btfe := Btfe.reset btfeDefault, port := ⟨[], [], [], [], []⟩ }
  parked := []
  odpp :=
    { thresh := []
      matrixReady := false
      width := 0
      height := 0
      pix := 0
      busy := false
      gray := []
      packed := []
      cfg := odppDefault }
  odppReplies := []
  inbox := []

end Sys2Proof.Machine
end

