-- ==== Sys2Proof/Machine/Flags.lean ====
section
/-! DEFINITION. The flags and the error register (spec/10_state.md R24, R27, R29, spec/60_exceptions.md R211, R212). There
are no arithmetic condition codes. -/

namespace Sys2Proof.Machine

/-- The code of a phase (R24). -/
def phaseCode : Phase → BitVec 3
  | .idle => 0
  | .tag => 1
  | .cbwOut => 2
  | .dataIn => 3
  | .dataOut => 4
  | .decode => 5
  | .cswIn => 6
  | .clearHalt => 7

/-- ERR_SUB of a transport error kind (R212). -/
def errCode : ErrKind → BitVec 3
  | .timeout => 1
  | .disconnect => 2
  | .stall => 3
  | .other => 4

/-- BUSY: not stored, 1 exactly when PHASE is not IDLE (R27 a). -/
def isBusy (b : Btfe) : Bool := decide (b.phase ≠ .idle)

/-- The error register as one byte: ERR_KIND in bits 1:0, ERR_SUB in 4:2, ERR_PHASE in 7:5 (R29). -/
def errWord (b : Btfe) : Byte := b.errPhase ++ (b.errSub ++ b.errKind)

/-- What acceptance does to the flags and the error register: `ERR_* <- 0; CSW_VALID <- 0` (R131). -/
def clearStatus (b : Btfe) : Btfe := { b with errKind := 0, errSub := 0, errPhase := 0, cswValid := false }

/-- What `raise TransportError(k)` records (R218). -/
def recordTransport (k : ErrKind) (b : Btfe) : Btfe :=
  { b with errKind := 1, errSub := errCode k, errPhase := phaseCode b.phase, phase := .idle }

/-- What `raise ProtocolError` records (R219). -/
def recordProtocol (b : Btfe) : Btfe :=
  { b with fault := true, errKind := 2, errSub := 0, errPhase := phaseCode b.phase, phase := .idle }

end Sys2Proof.Machine
end

