-- ==== Sys2Proof/Machine/Ops.lean ====
section
/-! DEFINITION. The named operations: memory, the port primitives, replies, raising an error and ending an operation,
the two resets. -/

namespace Sys2Proof.Machine

/-! ### Memory (spec/00_scope.md R13) -/

/-- `MemRead(space, addr, 1)`; `none` where the byte holds no value. -/
def Memory.read : Memory → Nat → Option Byte
  | [], _ => none
  | c :: m, a => if c.1 = a then some c.2 else Memory.read m a

/-- `MemWrite(space, addr, 1, v)`, keeping the addresses rising. -/
def Memory.write : Memory → Nat → Byte → Memory
  | [], a, v => [(a, v)]
  | c :: m, a, v =>
    if a < c.1 then (a, v) :: c :: m
    else if c.1 = a then (a, v) :: m
    else c :: Memory.write m a v

/-- The bytes of a sequence at consecutive addresses from `a`. -/
def Memory.ofBytesFrom : Nat → List Byte → Memory
  | _, [] => []
  | a, b :: t => (a, b) :: Memory.ofBytesFrom (a + 1) t

/-- A byte whose bits are needed though it may hold no value: a free value there (log 17). -/
def Memory.byteAt (m : Memory) (a : Nat) : Byte := (Memory.read m a).getD (Config.unwrittenByte a)

/-- `SetBit(space, addr, k, b)` (R13). The other bits of a byte that holds no value yet are free; the operation that uses
this writes all eight before it ends (R75), log 17. -/
def Memory.setBit (m : Memory) (a k : Nat) (b : Bool) : Memory :=
  let old := Memory.byteAt m a
  let one : Byte := 1#8 <<< k
  Memory.write m a (if b then old ||| one else old &&& ~~~one)

/-- The part of a memory below address n: a space of n bytes has no other (R60). -/
def Memory.below (m : Memory) (n : Nat) : Memory := m.filter fun c => decide (c.1 < n)

/-- The addresses run a, a+1, a+2, ... without a gap. -/
def Memory.runsFrom : Nat → Memory → Bool
  | _, [] => true
  | a, c :: m => decide (c.1 = a) && Memory.runsFrom (a + 1) m

/-- `len(gray) = n`: the memory holds exactly the bytes 0 to n-1 (R175). -/
def Memory.holdsFrame (m : Memory) (n : Nat) : Bool := decide (m.length = n) && Memory.runsFrom 0 m

/-- The bytes at addresses 0 to n-1, first first. -/
def Memory.bytes (m : Memory) (n : Nat) : List Byte := (List.range n).map fun a => Memory.byteAt m a

/-! ### Sessions -/

/-- Change the current session. -/
def State.withCur (s : State) (ss : Session) : State := { s with cur := ss }

/-- Change the ODPP. -/
def State.withOdpp (s : State) (o : Odpp) : State := { s with odpp := o }

/-- The requester of the ODPP receives a reply. -/
def State.odppReply (s : State) (r : OdppReply) : State := { s with odppReplies := s.odppReplies ++ [r] }

/-- Change the registers of a session's BTFE. -/
def Session.withBtfe (ss : Session) (b : Btfe) : Session := { ss with btfe := b }

/-- `PHASE <- p` (R12). -/
def Session.toPhase (ss : Session) (p : Phase) : Session := ss.withBtfe { ss.btfe with phase := p }

/-- The requester receives a reply. -/
def Session.reply (ss : Session) (r : BtfeReply) : Session :=
  { ss with port := { ss.port with replies := ss.port.replies ++ [r] } }

/-- A port call and its result go into the event trace (R16). -/
def Session.log (ss : Session) (c : PortCall) : Session :=
  { ss with port := { ss.port with trace := ss.port.trace ++ [c] } }

/-! ### The port primitives (R14) -/

/-- `BulkOut(EP_OUT, s)`. `none`: the call has not returned (R199 e), log 6. -/
def bulkOut (ss : Session) (bytes : List Byte) : Option (OutAnswer × Session) :=
  match ss.port.outAns with
  | [] => none
  | a :: rest =>
    some (a, Session.log { ss with port := { ss.port with outAns := rest } } (.bulkOut ss.btfe.cfg.epOut bytes a))

/-- `BulkIn` answers at most the n bytes asked for (R14 b). DESIGN CHOICE, log 7: of a longer answer the first n arrive. -/
def clipAnswer (n : Nat) : InAnswer → InAnswer
  | .data bytes => .data (bytes.take n)
  | .stall => .stall
  | .err k => .err k

/-- `BulkIn(EP_IN, n)`. `none`: the call has not returned. -/
def bulkIn (ss : Session) (n : Nat) : Option (InAnswer × Session) :=
  match ss.port.inAns with
  | [] => none
  | a :: rest =>
    some (clipAnswer n a,
      Session.log { ss with port := { ss.port with inAns := rest } } (.bulkIn ss.btfe.cfg.epIn n (clipAnswer n a)))

/-- `ClearHalt(EP_IN)`. `none`: the call has not returned. -/
def clearHalt (ss : Session) : Option (ClearAnswer × Session) :=
  match ss.port.clearAns with
  | [] => none
  | a :: rest =>
    some (a, Session.log { ss with port := { ss.port with clearAns := rest } } (.clearHalt ss.btfe.cfg.epIn a))

/-! ### Refusal, raising an error, ending an operation -/

/-- `refuse(reason)`: no register changes, the requester receives the reason (R217). -/
def refuse (ss : Session) (r : BtfeRefusal) : Session := ss.reply (.refused r)

/-- `raise TransportError(k)` (R218): recorded with the phase it was raised in, PHASE to IDLE, the error handed on. The
buffers, the operand latches and the working fields keep what they hold. DESIGN CHOICE, log 5. -/
def raiseTransport (ss : Session) (k : ErrKind) : Session :=
  (ss.withBtfe (recordTransport k ss.btfe)).reply (.transportError k)

/-- `raise ProtocolError` (R219): as R218, and FAULT is set. What else is kept: DESIGN CHOICE, log 5. -/
def raiseProtocol (ss : Session) : Session :=
  (ss.withBtfe (recordProtocol ss.btfe)).reply .protocolError

/-- What a completed operation returns: `Ok(v)` for a read, `Ok(())` for a write (R150, R155, R162 a). -/
def result (b : Btfe) : BtfeReply := if b.dir then .okValue b.value else .okUnit

/-- The operation is complete: `PHASE <- IDLE`, the requester receives the result (R162 a). What else is kept: DESIGN
CHOICE, log 5. -/
def endOperation (ss : Session) : Session := (ss.toPhase .idle).reply (result ss.btfe)

/-! ### Reset (spec/70_reset_and_hazards.md R240) -/

/-- Session reset (R240 b): PHASE, FAULT, CSW_VALID and ERR_*; an operation in progress is abandoned without a reply
(R243). What else is kept: DESIGN CHOICE, log 5. -/
def resetSession (ss : Session) : Session :=
  ss.withBtfe { clearStatus ss.btfe with phase := .idle, fault := false }

/-- The whole parameter table, MATRIX_SIDE squared bytes (R171). A parameter that lists fewer (none the spec admits) is
filled up with 0, log 26. -/
def tableBytes (c : OdppConfig) : List Byte := (List.range (c.side * c.side)).map fun a => c.table.getD a 0

/-- The ODPP after global reset: GRAY, PACKED and the configuration stay (R35, R38); a ROM table is there at once (R31). -/
def resetOdpp (o : Odpp) : Odpp :=
  { o with
    thresh := if o.cfg.rom then Memory.ofBytesFrom 0 (tableBytes o.cfg) else []
    matrixReady := o.cfg.rom
    width := 0
    height := 0
    pix := 0
    busy := false }

/-- A BTFE instance after global reset; its outside is not the hardware's to change. -/
def resetInstance (ss : Session) : Session := ss.withBtfe (Btfe.reset ss.btfe.cfg)

/-- Global reset (R240 a). Unspecified registers take the values of `State.reset` (log 32). -/
def globalReset (s : State) : State :=
  { s with
    tagctr := 1
    cur := resetInstance s.cur
    parked := s.parked.map resetInstance
    odpp := resetOdpp s.odpp }

/-- The turn goes to the next session (log 15). -/
def nextSession (s : State) : State :=
  match s.parked with
  | [] => s
  | p :: rest => { s with cur := p, parked := rest ++ [s.cur] }

/-- `FetchTag()`: the value before the increment, and the counter advanced modulo 2^32 (R130). -/
def fetchTag (c : Word) : Word × Word := (c, c + 1)

end Sys2Proof.Machine
end

