-- ==== Sys2Proof/Machine/Dither.lean ====
section
/-! DEFINITION. The ODPP (spec/41_dither_pack.md R170 to R180): the meanings of the table's odpp-request-head rows, and
the pixel step. DITHER_AND_PACK's meaning is its acceptance (R175); each pixel is then one step (R33, log 16). -/

namespace Sys2Proof.Machine

/-- The ODPP refuses a request: nothing of the block changes (R34, R217). -/
def refuseOdpp (s : State) (r : OdppRefusal) : State := s.odppReply (.refused r)

/-- MATRIX_INIT (R171): the table is written once; a second init does nothing. -/
def execMatrixInit (s : State) : Host.Outcome State Fault Refusal :=
  if s.odpp.busy then .next (refuseOdpp s .busy)
  else if s.odpp.matrixReady then .next (s.odppReply .initDone)
  else
    .next ((s.withOdpp
      { s.odpp with thresh := Memory.ofBytesFrom 0 (tableBytes s.odpp.cfg), matrixReady := true }).odppReply .initDone)

/-- The address in the linear table of the threshold of pixel (x, y): y selects the row, x the column (R66, R84 d, R173). -/
def thresholdAddr (c : OdppConfig) (x y : Nat) : Nat := (y % c.side) * c.side + x % c.side

/-- `THRESH[y mod MATRIX_SIDE][x mod MATRIX_SIDE]` (R173). -/
def threshold (o : Odpp) (x y : Nat) : Option Byte := Memory.read o.thresh (thresholdAddr o.cfg x y)

/-- LOOK_UP (R173). -/
def execLookUp (x y : Word) (s : State) : Host.Outcome State Fault Refusal :=
  if !s.odpp.matrixReady then .next (refuseOdpp s .notReady)
  else
    match threshold s.odpp x.toNat y.toNat with
    | some b => .next (s.odppReply (.threshold b))
    | none => .fault (.thresholdUnwritten (thresholdAddr s.odpp.cfg x.toNat y.toNat))

/-- The dimensions the ODPP takes (R175): both at least 1, a multiple of 8 pixels, and GRAY of exactly that many bytes. -/
def dimensionsOk (w h : Word) (gray : Memory) : Bool :=
  decide (w.toNat ≠ 0) && decide (h.toNat ≠ 0) && decide (w.toNat * h.toNat % 8 = 0)
    && Memory.holdsFrame gray (w.toNat * h.toNat)

/-- What an accepted frame loads (R175). PACKED becomes a space of WIDTH * HEIGHT / 8 bytes (R60, U34), log 18. -/
def latchFrame (w h : Word) (o : Odpp) : Odpp :=
  { o with width := w, height := h, pix := 0, busy := true, packed := Memory.below o.packed (w.toNat * h.toNat / 8) }

/-- DITHER_AND_PACK (R176), its acceptance (R175). -/
def execDitherAndPack (w h : Word) (s : State) : Host.Outcome State Fault Refusal :=
  if s.odpp.busy then .next (refuseOdpp s .busy)
  else if !s.odpp.matrixReady then .next (refuseOdpp s .notReady)
  else if !dimensionsOk w h s.odpp.gray then .next (refuseOdpp s .badDimensions)
  else .next (s.withOdpp (latchFrame w h s.odpp))

/-- ODPP_RESERVED (R108): refused BadEncoding; no other check comes first (log 30). -/
def execOdppReserved (s : State) : Host.Outcome State Fault Refusal :=
  .next (refuseOdpp s .badEncoding)

/-- A request the decoder rejects: refused BadEncoding (R108). -/
def rejectOdpp (s : State) : State := refuseOdpp s .badEncoding

/-- The number of pixels of the frame in progress, WIDTH * HEIGHT, exact (R180). -/
def pixels (o : Odpp) : Nat := o.width.toNat * o.height.toNat

/-- White iff the sample exceeds the threshold, unsigned and strict (R176, R177). -/
def isWhite (sample t : Byte) : Bool := decide (t.toNat < sample.toNat)

/-- PACKED with the bit of pixel p set to b: bit p mod 8 of byte p div 8 (R70, R176). -/
def putPixel (o : Odpp) (p : Nat) (b : Bool) : Odpp := { o with packed := Memory.setBit o.packed (p / 8) (p % 8) b }

/-- The last line of R176: after the last pixel ODPP_BUSY falls and the frame is returned; else the next pixel. PIX does
not pass WIDTH * HEIGHT - 1 (R33). -/
def advancePixel (s : State) : State :=
  if s.odpp.pix.toNat + 1 < pixels s.odpp then s.withOdpp { s.odpp with pix := s.odpp.pix + 1 }
  else (s.withOdpp { s.odpp with busy := false }).odppReply (.packed (Memory.bytes s.odpp.packed (pixels s.odpp / 8)))

/-- One pass of R176's loop, for the pixel PIX: `x = PIX mod WIDTH`, `y = PIX div WIDTH`. -/
def pixelStep (s : State) : Host.Outcome State Fault Refusal :=
  let p := s.odpp.pix.toNat
  let x := p % s.odpp.width.toNat
  let y := p / s.odpp.width.toNat
  match Memory.read s.odpp.gray p with
  | none => .fault (.grayUnwritten p)
  | some sample =>
    match threshold s.odpp x y with
    | none => .fault (.thresholdUnwritten (thresholdAddr s.odpp.cfg x y))
    | some t => .next (advancePixel (s.withOdpp (putPixel s.odpp p (isWhite sample t))))

/-- The ODPP's step: a pixel while it is busy, else nothing (R20 b). -/
def odppStep (s : State) : Host.Outcome State Fault Refusal :=
  if s.odpp.busy then pixelStep s else .next s

end Sys2Proof.Machine
end

