-- ==== Sys2Proof/Machine/Operands.lean ====
section
/-! DEFINITION. The operand forms: typed values as bytes and back (spec/40_transport_ops.md R133, R134), and the operands
of a BTFE request as acceptance sees them (R131). -/

namespace Sys2Proof.Machine

/-- One field of width w in the order `enc` (R133). -/
def encodeField (enc : Enc) (w v : Nat) : List Byte :=
  match enc with
  | .be => beBytes w v
  | .le => leBytes w v

/-- The number a field's bytes stand for (R134). -/
def decodeField (enc : Enc) (b : List Byte) : Nat :=
  match enc with
  | .be => unbeBytes b
  | .le => unleBytes b

/-- `EncodeValue(shape, enc, value)` (R133): fields in declaration order, no padding. -/
def encodeValue : List Nat → Enc → List Nat → List Byte
  | w :: ws, enc, v :: vs => encodeField enc w v ++ encodeValue ws enc vs
  | _, _, _ => []

/-- The fields of a buffer of the shape's size, in order (R134). -/
def decodeFields : List Nat → Enc → List Byte → List Nat
  | [], _, _ => []
  | w :: ws, enc, buf => decodeField enc (buf.take w) :: decodeFields ws enc (buf.drop w)

/-- `DecodeValue(shape, enc, buf)` (R134): `none` is its `fail`. -/
def decodeValue (shape : List Nat) (enc : Enc) (buf : List Byte) : Option (List Nat) :=
  if buf.length = shapeSize shape then some (decodeFields shape enc buf) else none

/-- The operands of a request in the form in which acceptance takes them (R131): `n` is the transfer length before it is
known to fit 32 bits, `payload` the bytes of a write, `ok` that the request is not ill-encoded (R108). -/
structure Operation where
  ok      : Bool
  dir     : Bool
  cmd     : List Byte
  n       : Nat
  payload : Option (List Byte)
  shape   : List Nat
  enc     : Enc
  deriving DecidableEq, Repr

/-- READ_COMMAND's operands: `n = sizeof(shape)`, DIR = 1 (R100, R101, R131). -/
def readOperation (enc : Enc) (cmd : List Byte) (shape : List Nat) : Operation where
  ok := cmdOk cmd && shapeOk shape
  dir := true
  cmd := cmd
  n := shapeSize shape
  payload := none
  shape := shape
  enc := enc

/-- WRITE_COMMAND's operands: `n = sizeof(shape) + len(extra)`, DIR = 0, the payload serialized (R100, R101, R131). -/
def writeOperation (enc : Enc) (cmd : List Byte) (shape value : List Nat) (extra : List Byte) : Operation where
  ok := cmdOk cmd && shapeOk shape && valueFits shape value
  dir := false
  cmd := cmd
  n := shapeSize shape + extra.length
  payload := some (encodeValue shape enc value ++ extra)
  shape := shape
  enc := enc

/-- The operands of an ill-encoded request (R108). -/
def illEncoded : Operation where
  ok := false
  dir := false
  cmd := []
  n := 0
  payload := none
  shape := []
  enc := .be

end Sys2Proof.Machine
end

