-- ==== Sys2Proof/Machine/Requests.lean ====
section
/-! DEFINITION. The request port of the BTFE: acceptance (spec/40_transport_ops.md R131) and the meanings of the table's
btfe-request-head rows. A request's meaning is its acceptance, the first step of the operation; the steps that follow are
taken one by one from PHASE (R20, R24, R25) and stand in Transport.lean and Sequencer.lean. -/

namespace Sys2Proof.Machine

/-- What an accepted request loads (R131). A read leaves in DBUF what it held until its DATA_IN step. DESIGN CHOICE, log 5. -/
def latchOperation (q : Operation) (b : Btfe) : Btfe :=
  { clearStatus b with
    cmd := q.cmd
    xlen := BitVec.ofNat 32 q.n
    dir := q.dir
    dbuf := q.payload.getD b.dbuf
    shape := q.shape
    enc := q.enc
    phase := .tag }

/-- `Accept(req)` (R131), the checks in the order of R221. -/
def accept (q : Operation) (ss : Session) : Session :=
  if ss.btfe.phase ≠ .idle then refuse ss .busy
  else if ss.btfe.fault then refuse ss .faulted
  else if !q.ok then refuse ss .badEncoding
  else if 2 ^ 32 ≤ q.n then refuse ss .lengthOverflow
  else ss.withBtfe (latchOperation q ss.btfe)

/-- READ_COMMAND (R150), its acceptance. -/
def execReadCommand (enc : Enc) (cmd : List Byte) (shape : List Nat) (s : State) : Host.Outcome State Fault Refusal :=
  .next (s.withCur (accept (readOperation enc cmd shape) s.cur))

/-- WRITE_COMMAND (R155), its acceptance. -/
def execWriteCommand (enc : Enc) (cmd : List Byte) (shape value : List Nat) (extra : List Byte) (s : State) :
    Host.Outcome State Fault Refusal :=
  .next (s.withCur (accept (writeOperation enc cmd shape value extra) s.cur))

/-- WRITE_COMMAND_RAW (R158): WRITE_COMMAND of the empty shape and value, order BE. -/
def execWriteCommandRaw (cmd data : List Byte) (s : State) : Host.Outcome State Fault Refusal :=
  .next (s.withCur (accept (writeOperation .be cmd [] [] data) s.cur))

/-- BTFE_RESERVED (R108): refused BadEncoding, after Busy and Faulted (R131, R221); bit 2 of the head does not matter. -/
def execBtfeReserved (_e : Bool) (s : State) : Host.Outcome State Fault Refusal :=
  .next (s.withCur (accept illEncoded s.cur))

/-- A request the decoder rejects: refused BadEncoding like the reserved code (R108, R131). -/
def rejectBtfe (s : State) : State := s.withCur (accept illEncoded s.cur)

end Sys2Proof.Machine
end

