-- ==== Sys2Proof/Machine/Transport.lean ====
section
/-! DEFINITION. The BTFE's steps after acceptance (spec/40_transport_ops.md R130, R132 to R134, R140, R141, R150, R155) and
the meanings of the wire records and of the internal actions. When an internal action runs is the sequencer's to say
(Sequencer.lean); a requester cannot ask for one (R107), log 13. -/

namespace Sys2Proof.Machine

/-! ### TAG and CBW_OUT (R132) -/

/-- FETCH_TAG (R130) as the TAG step takes it: the tag goes to TAG (R23, R132). -/
def execFetchTag (s : State) : Host.Outcome State Fault Refusal :=
  .next
    { s.withCur (s.cur.withBtfe { s.cur.btfe with tag := (fetchTag s.tagctr).1 }) with
      tagctr := (fetchTag s.tagctr).2 }

/-- The rest of the TAG step: `CBWBUF <- EncodeCBW(TAG, XLEN, DIR, CMD); PHASE <- CBW_OUT` (R132). -/
def buildCbw (ss : Session) : Session :=
  ss.withBtfe
    { ss.btfe with
      cbwbuf := encodeCbw ss.btfe.cfg.cbwSignature ss.btfe.tag ss.btfe.xlen ss.btfe.dir ss.btfe.cmd
      phase := .cbwOut }

/-- The CBW_OUT step (R132): the wrapper goes out in one call; the data phase follows by DIR. -/
def sendCbw (bytes : List Byte) (ss : Session) : Session :=
  match bulkOut ss bytes with
  | none => ss
  | some (.ok, t) => t.toPhase (if t.btfe.dir then .dataIn else .dataOut)
  | some (.stall, t) => raiseTransport t .stall
  | some (.err k, t) => raiseTransport t k

/-- CBW (R90, R132): the record's 31 bytes are sent on EP_OUT. -/
def execCbw (r : CbwRecord) (s : State) : Host.Outcome State Fault Refusal :=
  .next (s.withCur (sendCbw (cbwBytes r) s.cur))

/-! ### The data phase -/

/-- The status handshake begins: `rounds <- 0; PHASE <- CSW_IN` (R140). -/
def enterHandshake (ss : Session) : Session :=
  ss.withBtfe { ss.btfe with phase := .cswIn, rounds := 0 }

/-- The DATA_IN step (R150): one read of XLEN bytes; fewer is a ProtocolError (D10). -/
def dataInStep (ss : Session) : Session :=
  match bulkIn ss ss.btfe.xlen.toNat with
  | none => ss
  | some (.data bytes, t) =>
    if bytes.length ≠ t.btfe.xlen.toNat then raiseProtocol t
    else t.withBtfe { t.btfe with dbuf := bytes, phase := .decode }
  | some (.stall, t) => raiseTransport t .stall
  | some (.err k, t) => raiseTransport t k

/-- The DATA_OUT step (R155): the whole payload in one call. -/
def dataOutStep (ss : Session) : Session :=
  match bulkOut ss (ss.btfe.dbuf.take ss.btfe.xlen.toNat) with
  | none => ss
  | some (.ok, t) => enterHandshake t
  | some (.stall, t) => raiseTransport t .stall
  | some (.err k, t) => raiseTransport t k

/-- `v <- DecodeValue(shape, enc, buf)`; where it fails, ProtocolError (R134, R150). -/
def decodeInto (shape : List Nat) (enc : Enc) (buf : List Byte) (ss : Session) : Session :=
  match decodeValue shape enc buf with
  | some v => ss.withBtfe { ss.btfe with value := v }
  | none => raiseProtocol ss

/-- DECODE_VALUE (R134) as the DECODE step takes it: the value is held for the end of the operation. -/
def execDecodeValue (shape : List Nat) (enc : Enc) (buf : List Byte) (s : State) : Host.Outcome State Fault Refusal :=
  .next (s.withCur (decodeInto shape enc buf s.cur))

/-- The rest of the DECODE step: where the decode did not raise, the handshake begins (R25, R150). -/
def afterDecode (ss : Session) : Session := if ss.btfe.phase = .decode then enterHandshake ss else ss

/-- `DBUF <- EncodeValue(shape, enc, value)`; a value that does not fit its shape is no operand of
R133 and is refused as acceptance refuses it (R108). DESIGN CHOICE, logs 13, 28. -/
def encodeInto (shape : List Nat) (enc : Enc) (value : List Nat) (ss : Session) : Session :=
  if shapeOk shape && valueFits shape value then
    ss.withBtfe { ss.btfe with dbuf := encodeValue shape enc value }
  else refuse ss .badEncoding

/-- ENCODE_VALUE (R133) on its own: the bytes go to DBUF, as acceptance puts them there (R131). -/
def execEncodeValue (shape : List Nat) (enc : Enc) (value : List Nat) (s : State) : Host.Outcome State Fault Refusal :=
  .next (s.withCur (encodeInto shape enc value s.cur))

/-! ### The status handshake (R140, R141) -/

/-- The latching half of `LatchCSW()` (R141). -/
def latchFields (r : CswRecord) (b : Btfe) : Btfe :=
  { b with cswSig := r.signature, cswTag := r.tag, cswResidue := r.residue, cswStatus := r.status, cswValid := true }

/-- The optional checks of `LatchCSW()`, in their order (R141, R221): whether one that is on fails. All are off by
default (D6). -/
def cswCheckFails (b : Btfe) : Bool :=
  (b.cfg.checkCswSignature && b.cswSig != b.cfg.cswSignature)
    || (b.cfg.checkCswTag && b.cswTag != b.tag)
    || (b.cfg.checkCswStatus && b.cswStatus != 0)

/-- A status wrapper of 13 bytes has arrived: `CSWBUF <- s; LatchCSW()`, and the operation is complete (R140, R141,
R162 a) unless a check that is on fails. -/
def takeCsw (bytes : List Byte) (ss : Session) : Session :=
  let t := ss.withBtfe (latchFields (cswFields bytes) { ss.btfe with cswbuf := bytes })
  if cswCheckFails t.btfe then raiseProtocol t else endOperation t

/-- CSW (R96, R140): the record is what `BulkIn(EP_IN, 13)` returns. -/
def execCsw (r : CswRecord) (s : State) : Host.Outcome State Fault Refusal :=
  .next (s.withCur (takeCsw (cswBytes r)
    (s.cur.log (.bulkIn s.cur.btfe.cfg.epIn cswLen (.data (cswBytes r))))))

/-- Whether a stall of the status read has used up RETRY_LIMIT (R140); never with the default. -/
def retriesSpent (b : Btfe) : Bool := b.cfg.retryLimit == some b.rounds

/-- The CSW_IN step (R140). -/
def cswInStep (ss : Session) : Session :=
  match bulkIn ss cswLen with
  | none => ss
  | some (.data bytes, t) => if bytes.length ≠ cswLen then raiseProtocol t else takeCsw bytes t
  | some (.stall, t) => if retriesSpent t.btfe then raiseTransport t .stall else t.toPhase .clearHalt
  | some (.err k, t) => raiseTransport t k

/-- The CLEAR_HALT step (R140): back to the same read, one round more (R222). -/
def clearHaltStep (ss : Session) : Session :=
  match clearHalt ss with
  | none => ss
  | some (.ok, t) => t.withBtfe { t.btfe with phase := .cswIn, rounds := t.btfe.rounds + 1 }
  | some (.err k, t) => raiseTransport t k

/-- One port call of the handshake: the clear where one is due, else the status read, which opens the handshake where it
is not open yet (R140). -/
def handshakeStep (ss : Session) : Session :=
  match ss.btfe.phase with
  | .clearHalt => clearHaltStep ss
  | .cswIn => cswInStep ss
  | _ => cswInStep (enterHandshake ss)

/-- STATUS_HANDSHAKE (R140), one port call of it (R20). -/
def execStatusHandshake (s : State) : Host.Outcome State Fault Refusal :=
  .next (s.withCur (handshakeStep s.cur))

end Sys2Proof.Machine
end

