-- ==== Sys2Proof/Machine/Dispatch.lean ====
section
/-! DEFINITION. exec: one arm per constructor of Instr, each one call of its meaning. -/

namespace Sys2Proof.Machine

def exec (i : Instr) (s : State) : Host.Outcome State Fault Refusal :=
  match i with
  | .cbw r => Sys2Proof.Machine.execCbw r s
  | .csw r => Sys2Proof.Machine.execCsw r s
  | .readCommand enc cmd shape => Sys2Proof.Machine.execReadCommand enc cmd shape s
  | .writeCommand enc cmd shape value extra => Sys2Proof.Machine.execWriteCommand enc cmd shape value extra s
  | .writeCommandRaw cmd data => Sys2Proof.Machine.execWriteCommandRaw cmd data s
  | .btfeReserved e => Sys2Proof.Machine.execBtfeReserved e s
  | .matrixInit => Sys2Proof.Machine.execMatrixInit s
  | .lookUp x y => Sys2Proof.Machine.execLookUp x y s
  | .ditherAndPack w h => Sys2Proof.Machine.execDitherAndPack w h s
  | .odppReserved => Sys2Proof.Machine.execOdppReserved s
  | .fetchTag => Sys2Proof.Machine.execFetchTag s
  | .encodeValue shape enc value => Sys2Proof.Machine.execEncodeValue shape enc value s
  | .decodeValue shape enc buf => Sys2Proof.Machine.execDecodeValue shape enc buf s
  | .statusHandshake => Sys2Proof.Machine.execStatusHandshake s

end Sys2Proof.Machine
end

