-- ==== Sys2Proof/Machine/Sequencer.lean ====
section
/-! DEFINITION. The sequencer of a BTFE instance (spec/10_state.md R24, R25), the outside events (spec/42_boundary_host.md
R197), and what one step of the machine is. -/

namespace Sys2Proof.Machine

/-- Go on with a function of the state where the machine has not stopped. -/
def andThen (o : Host.Outcome State Fault Refusal) (f : State → State) : Host.Outcome State Fault Refusal :=
  match o with
  | .next s => .next (f s)
  | .fault r => .fault r
  | .refused r => .refused r

/-- The status wrapper that is about to arrive: where the next answer to the status read is 13 bytes of data. -/
def arrivingCsw (ss : Session) : Option CswRecord :=
  match ss.port.inAns with
  | .data bytes :: _ => if (bytes.take cswLen).length = cswLen then some (cswFields (bytes.take cswLen)) else none
  | _ => none

/-- The session with the next answer of the IN endpoint taken. -/
def takeAnswer (ss : Session) : Session := { ss with port := { ss.port with inAns := ss.port.inAns.drop 1 } }

/-- The CSW_IN step: where 13 bytes arrive they are decoded and the CSW record is executed; on every other answer the
handshake deals with it (R140), log 13. -/
def statusStep (s : State) : Host.Outcome State Fault Refusal :=
  match arrivingCsw s.cur with
  | some r => exec (.csw r) (s.withCur (takeAnswer s.cur))
  | none => exec .statusHandshake s

/-- One step of the current BTFE instance: the step its PHASE names (R24). -/
def btfeStep (s : State) : Host.Outcome State Fault Refusal :=
  match s.cur.btfe.phase with
  | .idle => .next s
  | .tag => andThen (exec .fetchTag s) fun t => t.withCur (buildCbw t.cur)
  | .cbwOut => exec (.cbw (cbwFields s.cur.btfe.cbwbuf)) s
  | .dataIn => .next (s.withCur (dataInStep s.cur))
  | .dataOut => .next (s.withCur (dataOutStep s.cur))
  | .decode =>
    andThen
      (exec (.decodeValue s.cur.btfe.shape s.cur.btfe.enc (s.cur.btfe.dbuf.take s.cur.btfe.xlen.toNat)) s)
      fun t => t.withCur (afterDecode t.cur)
  | .cswIn => statusStep s
  | .clearHalt => exec .statusHandshake s

/-- n steps of the current BTFE instance, one after another (R79). -/
def btfeSteps : Nat → State → Host.Outcome State Fault Refusal
  | 0, s => .next s
  | n + 1, s =>
    match btfeStep s with
    | .next t => btfeSteps n t
    | .fault r => .fault r
    | .refused r => .refused r

/-- n steps of the ODPP, one after another. -/
def odppSteps : Nat → State → Host.Outcome State Fault Refusal
  | 0, s => .next s
  | n + 1, s =>
    match odppStep s with
    | .next t => odppSteps n t
    | .fault r => .fault r
    | .refused r => .refused r

/-- A request at the BTFE port: decoded and executed, or refused BadEncoding (R108, R131). -/
def serveBtfe (q : BtfeRequest) (s : State) : Host.Outcome State Fault Refusal :=
  match decode (.btfe q) with
  | .ok i => exec i s
  | .error _ => .next (rejectBtfe s)

/-- A request at the ODPP port: decoded and executed, or refused BadEncoding (R108). -/
def serveOdpp (q : OdppRequest) (s : State) : Host.Outcome State Fault Refusal :=
  match decode (.odpp q) with
  | .ok i => exec i s
  | .error _ => .next (rejectOdpp s)

/-- GRAY is handed over; a race while the ODPP is busy (R83, U39), log 21. -/
def loadGray (bytes : List Byte) (s : State) : Host.Outcome State Fault Refusal :=
  if s.odpp.busy then .fault .grayRace
  else .next (s.withOdpp { s.odpp with gray := Memory.ofBytesFrom 0 bytes })

/-- The requester reads the CSW registers: their values where CSW_VALID = 1, else refused (R28, U32), log 22. -/
def readCsw (ss : Session) : Session :=
  if ss.btfe.cswValid then
    ss.reply (.cswRegisters ss.btfe.cswSig ss.btfe.cswTag ss.btfe.cswResidue ss.btfe.cswStatus)
  else ss.reply .cswNoValue

/-- The requester reads the error register (R29, R233). -/
def readErr (ss : Session) : Session := ss.reply (.errRegister (errWord ss.btfe))

/-- The requester reads a byte of PACKED; a race while the ODPP is busy (R83, U39), log 21. -/
def readPacked (a : Nat) (s : State) : Host.Outcome State Fault Refusal :=
  if s.odpp.busy then .fault .packedRace
  else
    match Memory.read s.odpp.packed a with
    | some b => .next (s.odppReply (.packedByte b))
    | none => .fault (.packedUnwritten a)

/-- One outside event. -/
def serve (e : Input) (s : State) : Host.Outcome State Fault Refusal :=
  match e with
  | .btfeRequest q => serveBtfe q s
  | .odppRequest q => serveOdpp q s
  | .btfeTurn => btfeStep s
  | .odppTurn => odppStep s
  | .nextSession => .next (nextSession s)
  | .globalReset => .next (globalReset s)
  | .sessionReset => .next (s.withCur (resetSession s.cur))
  | .loadGray bytes => loadGray bytes s
  | .readCsw => .next (s.withCur (readCsw s.cur))
  | .readErr => .next (s.withCur (readErr s.cur))
  | .readPacked a => readPacked a s

/-- With no outside event the blocks go on by themselves: the ODPP if it is busy, else the current BTFE (log 8). -/
def goOn (s : State) : Host.Outcome State Fault Refusal := if s.odpp.busy then odppStep s else btfeStep s

/-- One step of the machine: the next outside event, or the blocks go on. -/
def stepMachine (s : State) : Host.Outcome State Fault Refusal :=
  match s.inbox with
  | [] => goOn s
  | e :: rest => serve e { s with inbox := rest }

/-- A record placed where the machine takes it next (log 9): a request at its port; a command wrapper in CBWBUF with
PHASE = CBW_OUT; a status wrapper as the next answer with PHASE = CSW_IN; the wire records with the BTFE's turn next. -/
def place (s : State) : Encoded → State
  | .btfe q => { s with inbox := .btfeRequest q :: s.inbox }
  | .odpp q => { s with inbox := .odppRequest q :: s.inbox }
  | .wire b =>
    if b.length = cbwLen then
      { s with
        cur := s.cur.withBtfe { s.cur.btfe with cbwbuf := b, phase := .cbwOut }
        inbox := .btfeTurn :: s.inbox }
    else
      { s with
        cur :=
          { btfe := { s.cur.btfe with phase := .cswIn }
            port := { s.cur.port with inAns := .data b :: s.cur.port.inAns } }
        inbox := .btfeTurn :: s.inbox }

/-- A table word placed as the next instruction; a word of no record changes nothing. -/
def placeTableWord (s : State) (nbits w : Nat) : State :=
  match tableLayout nbits w with
  | some e => place s e
  | none => s

end Sys2Proof.Machine
end

