-- ==== Sys2Proof/Machine/Step.lean ====
section
/-! DEFINITION. The step of the machine, and a table word placed where the next step takes it. -/

namespace Sys2Proof.Machine

/-- One step of the machine (R20). -/
def step (s : State) : Host.Outcome State Fault Refusal := stepMachine s

/-- `s` with the instruction of a table word as the one the next step runs (log 9). -/
def State.withFetchWord (s : State) (nbits w : Nat) : State := placeTableWord s nbits w

end Sys2Proof.Machine
end

