-- ==== Sys2Proof/WellFormed.lean ====
section
/-! DEFINITION. Which instructions are well-formed (spec/30_encoding.md R95, R104, R108). -/

namespace Sys2Proof

/-- R95, for the parameter CBW_SIGNATURE `sig`: the signature, flags 0x80 or 0x00, lun 0, command length 16; and 16 command
bytes (R90). The tag may be 0. -/
def CbwRecord.wellFormed (sig : Quad) (r : CbwRecord) : Bool :=
  r.signature == sig && (r.flags == 0x80 || r.flags == 0x00) && r.lun == 0x00 && r.commandLength == 0x10 && cmdOk r.command

/-- Well-formedness of an instruction, for the parameter CBW_SIGNATURE `sig`: R95 for a command wrapper; every status wrapper is legal (R99, R109); a request's
command has 16 bytes, its shape is a shape and its value fits it (R104, R108). -/
def Instr.wellFormed (sig : Quad) : Instr → Bool
  | .cbw r => r.wellFormed sig
  | .csw _ => true
  | .readCommand _ cmd shape => cmdOk cmd && shapeOk shape
  | .writeCommand _ cmd shape value _ => cmdOk cmd && shapeOk shape && valueFits shape value
  | .writeCommandRaw cmd _ => cmdOk cmd
  | .btfeReserved _ => true
  | .matrixInit => true
  | .lookUp _ _ => true
  | .ditherAndPack _ _ => true
  | .odppReserved => true
  | .fetchTag => true
  | .encodeValue shape _ value => shapeOk shape && valueFits shape value
  | .decodeValue shape _ _ => shapeOk shape
  | .statusHandshake => true

end Sys2Proof
end

