-- ==== Sys2Proof/Safety.lean ====
section
/-! DEFINITION. What every state of a run satisfies, in the terms the statements use: the invariant of a BTFE instance, of
the ODPP and of the machine, and the moves of PHASE. -/

namespace Sys2Proof.Safety

open Sys2Proof.Machine

/-- The invariant of one BTFE instance. -/
structure BtfeInv (b : Btfe) : Prop where
  /-- CMD, CBWBUF and CSWBUF have 16, 31 and 13 bytes (R23, R26). -/
  cmdBytes : b.cmd.length = cmdLen
  cbwBytes : b.cbwbuf.length = Sys2Proof.cbwLen
  cswBytes : b.cswbuf.length = Sys2Proof.cswLen
  /-- ERR_KIND is never 3 (R29, R211). -/
  kind : b.errKind = 0 ∨ b.errKind = 1 ∨ b.errKind = 2
  /-- With no error recorded the other two fields are 0 (R29). -/
  noError : b.errKind = 0 → b.errSub = 0 ∧ b.errPhase = 0
  /-- A transport error has a kind 1 to 4 (R212) and was raised in a phase that makes a port call (R213). -/
  transport : b.errKind = 1 →
    (b.errSub = 1 ∨ b.errSub = 2 ∨ b.errSub = 3 ∨ b.errSub = 4) ∧
      (b.errPhase = 2 ∨ b.errPhase = 3 ∨ b.errPhase = 4 ∨ b.errPhase = 6 ∨ b.errPhase = 7)
  /-- A protocol error has no kind (R29) and comes from DATA_IN, DECODE or CSW_IN (R213, R214). -/
  protocol : b.errKind = 2 → b.errSub = 0 ∧ (b.errPhase = 3 ∨ b.errPhase = 5 ∨ b.errPhase = 6)
  /-- FAULT stands exactly while the error recorded is a protocol error (R219, R241). -/
  faulted : b.fault = true ↔ b.errKind = 2
  /-- While an operation runs, FAULT, ERR_KIND and CSW_VALID are 0 (R131, R218). -/
  running : b.phase ≠ .idle → b.fault = false ∧ b.errKind = 0 ∧ b.cswValid = false
  /-- A read asks for exactly the bytes of its shape (R100). -/
  reading : b.phase ≠ .idle → b.dir = true → shapeSize b.shape = b.xlen.toNat
  /-- A write's payload has XLEN bytes (R26, R63). -/
  writing : b.phase ≠ .idle → b.dir = false → b.dbuf.length = b.xlen.toNat
  /-- The data phase is the one DIR names (R25). -/
  dataIn : b.phase = .dataIn → b.dir = true
  dataOut : b.phase = .dataOut → b.dir = false
  /-- In DECODE, DBUF holds the XLEN bytes of the data phase (R63, R150). -/
  decoding : b.phase = .decode → b.dir = true ∧ b.dbuf.length = b.xlen.toNat
  /-- In CBW_OUT, CBWBUF is the wrapper of the operation in progress (R92, R95, R132). -/
  wrapper : b.phase = .cbwOut → b.cbwbuf = encodeCbw b.cfg.cbwSignature b.tag b.xlen b.dir b.cmd
  /-- The CSW registers that are valid are the fields of CSWBUF, latched together (R28, R141). -/
  latched : b.cswValid = true → cswFields b.cswbuf = ⟨b.cswSig, b.cswTag, b.cswResidue, b.cswStatus⟩

/-- The invariant of the ODPP. -/
structure OdppInv (o : Odpp) : Prop where
  /-- The memories keep their canonical form. -/
  threshWf : Memory.wf o.thresh
  grayWf : Memory.wf o.gray
  packedWf : Memory.wf o.packed
  /-- After MATRIX_INIT the table is the parameter table and does not change (R31, R171). -/
  table : o.matrixReady = true → o.thresh = Memory.ofBytesFrom 0 (tableBytes o.cfg)
  /-- With a ROM table MATRIX_READY is 1 (R31). -/
  rom : o.cfg.rom = true → o.matrixReady = true
  /-- While ODPP_BUSY = 1 the frame was accepted and PIX is one of its pixels (R33, R175). -/
  running : o.busy = true →
    o.matrixReady = true ∧ o.width.toNat ≠ 0 ∧ o.height.toNat ≠ 0 ∧ pixels o % 8 = 0 ∧
      o.pix.toNat < pixels o ∧ Memory.holdsFrame o.gray (pixels o) = true

/-- The invariant of the machine: every BTFE instance and the ODPP keep theirs. -/
structure StateInv (s : State) : Prop where
  cur : BtfeInv s.cur.btfe
  parked : ∀ p ∈ s.parked, BtfeInv p.btfe
  odpp : OdppInv s.odpp

/-- The moves a step of a BTFE instance may make from each phase: R25's table, and staying where a port call has not
returned (R199 e). -/
def phaseMoves : Phase → List Phase
  | .idle => [.idle]
  | .tag => [.cbwOut]
  | .cbwOut => [.cbwOut, .dataIn, .dataOut, .idle]
  | .dataIn => [.dataIn, .decode, .idle]
  | .dataOut => [.dataOut, .cswIn, .idle]
  | .decode => [.cswIn, .idle]
  | .cswIn => [.cswIn, .clearHalt, .idle]
  | .clearHalt => [.clearHalt, .cswIn, .idle]

/-- The outside events after which the current BTFE instance is another one, or a fresh one. -/
def changesSession : Input → Bool
  | .btfeRequest _ => false
  | .odppRequest _ => false
  | .btfeTurn => false
  | .odppTurn => false
  | .nextSession => true
  | .globalReset => true
  | .sessionReset => true
  | .loadGray _ => false
  | .readCsw => false
  | .readErr => false
  | .readPacked _ => false

/-- The default of R8: no optional check of a received status wrapper is on (D6). -/
def checksOff (c : BtfeConfig) : Prop :=
  c.checkCswSignature = false ∧ c.checkCswTag = false ∧ c.checkCswStatus = false

/-- A port call of the current phase is answered so that the operation ends in TransportError(k): R213 rows 1, 2, 4, 5, 7 to
12 (a stall of the status read does so only where RETRY_LIMIT is used up). -/
def failsWith (ss : Session) (k : ErrKind) : Prop :=
  ((ss.btfe.phase = .cbwOut ∨ ss.btfe.phase = .dataOut) ∧
    ∃ rest, ss.port.outAns = .err k :: rest ∨ (k = .stall ∧ ss.port.outAns = .stall :: rest)) ∨
  (ss.btfe.phase = .dataIn ∧
    ∃ rest, ss.port.inAns = .err k :: rest ∨ (k = .stall ∧ ss.port.inAns = .stall :: rest)) ∨
  (ss.btfe.phase = .cswIn ∧
    ∃ rest, ss.port.inAns = .err k :: rest ∨
      (k = .stall ∧ ss.port.inAns = .stall :: rest ∧ ss.btfe.cfg.retryLimit = some ss.btfe.rounds)) ∨
  (ss.btfe.phase = .clearHalt ∧ ∃ rest, ss.port.clearAns = .err k :: rest)

/-- An instruction is a request at the BTFE port that asks for a transfer of n bytes (R131). -/
def requestsBytes (i : Instr) (n : Nat) : Prop :=
  (∃ enc cmd shape, i = .readCommand enc cmd shape ∧ n = shapeSize shape) ∨
    (∃ enc cmd shape value extra, i = .writeCommand enc cmd shape value extra ∧ n = shapeSize shape + extra.length) ∨
    ∃ cmd data, i = .writeCommandRaw cmd data ∧ n = data.length

/-- The tags drawn by a sequence of FETCH_TAG actions, each by the session the turn has come to after so many hand-overs
(R130, R230). -/
def drawTags : List Nat → State → List Word
  | [], _ => []
  | k :: ks, s =>
    match exec .fetchTag (Nat.repeat nextSession k s) with
    | .next t => t.cur.btfe.tag :: drawTags ks t
    | _ => []

/-- The instructions of the ODPP; the others are the BTFE's (R107). -/
def isOdppInstr : Instr → Bool
  | .cbw _ => false
  | .csw _ => false
  | .readCommand _ _ _ => false
  | .writeCommand _ _ _ _ _ => false
  | .writeCommandRaw _ _ => false
  | .btfeReserved _ => false
  | .matrixInit => true
  | .lookUp _ _ => true
  | .ditherAndPack _ _ => true
  | .odppReserved => true
  | .fetchTag => false
  | .encodeValue _ _ _ => false
  | .decodeValue _ _ _ => false
  | .statusHandshake => false

/-- The one port call a step from each phase may make, but for the environment's answer (R24, R61, R62, R73). -/
def callOf (b : Btfe) : PortCall → Prop
  | .bulkOut ep bytes _ =>
    ep = b.cfg.epOut ∧
      ((b.phase = .cbwOut ∧ bytes = b.cbwbuf) ∨ (b.phase = .dataOut ∧ bytes = b.dbuf))
  | .bulkIn ep n _ =>
    ep = b.cfg.epIn ∧ ((b.phase = .dataIn ∧ n = b.xlen.toNat) ∨ (b.phase = .cswIn ∧ n = 13))
  | .clearHalt ep _ => ep = b.cfg.epIn ∧ b.phase = .clearHalt

/-- The bit of PACKED for pixel p of a frame (R176, R179): white iff the sample at p exceeds the threshold of
(p mod WIDTH, p div WIDTH). -/
def whiteAt (gray table : List Byte) (c : OdppConfig) (width p : Nat) : Bool :=
  isWhite (gray.getD p 0) (table.getD (thresholdAddr c (p % width) (p / width)) 0)

end Sys2Proof.Safety
end

