-- ==== Sys2Proof/Certificates/Slice0/Obligations.lean ====
section
/-! DEFINITION. The statements for the provers. Each docstring names the rules of spec/ the statement formalises. Where a
statement gives the next state as `s` with fields replaced, that is its frame: every field not named is unchanged. -/

open Sys2Proof Sys2Proof.Machine Sys2Proof.Safety

/-! ### Reset, invariants -/

/-- The values the spec gives for reset (R38, R244): TAGCTR 1, PHASE IDLE, FAULT, CSW_VALID, ERR_* 0, MATRIX_READY, PIX,
ODPP_BUSY 0, nothing in THRESH. -/
def Obligations.ResetLeavesTheStatedValues : Prop :=
  State.reset.tagctr = 1 ∧ State.reset.cur.btfe.phase = .idle ∧ State.reset.cur.btfe.fault = false ∧
    State.reset.cur.btfe.cswValid = false ∧ State.reset.cur.btfe.errKind = 0 ∧ State.reset.cur.btfe.errSub = 0 ∧
    State.reset.cur.btfe.errPhase = 0 ∧ State.reset.odpp.matrixReady = false ∧ State.reset.odpp.pix = 0 ∧
    State.reset.odpp.busy = false ∧ ∀ a, Memory.read State.reset.odpp.thresh a = none

/-- The invariant holds after reset. -/
def Obligations.ResetMeetsTheInvariant : Prop := StateInv State.reset

/-- Every step keeps the invariant: legal error register, wrapper and buffers of the operation in progress, CSW registers
latched together, table immutable, memories canonical, PIX inside the frame (R28, R29, R31, R33, R63, R95, R213, R218). -/
def Obligations.StepKeepsTheInvariant : Prop :=
  ∀ s t, StateInv s → step s = .next t → StateInv t

/-- R64, R65, R66, R75, R83: who writes the ODPP's memories. GRAY changes only where the requester hands a frame over;
THRESH only by the first MATRIX_INIT or by global reset; PACKED only while the ODPP is busy or where a DITHER_AND_PACK
arrives. -/
def Obligations.MemoriesAreWrittenOnlyByTheirOwners : Prop :=
  ∀ s t, step s = .next t →
    (t.odpp.gray = s.odpp.gray ∨ ∃ g rest, s.inbox = .loadGray g :: rest) ∧
    (t.odpp.thresh = s.odpp.thresh ∨
      (s.odpp.matrixReady = false ∧ ∃ q rest, s.inbox = .odppRequest q :: rest ∧ decode (.odpp q) = .ok .matrixInit) ∨
      ∃ rest, s.inbox = .globalReset :: rest) ∧
    (t.odpp.packed = s.odpp.packed ∨ s.odpp.busy = true ∨
      ∃ q rest w h, s.inbox = .odppRequest q :: rest ∧ decode (.odpp q) = .ok (.ditherAndPack w h))

/-! ### Encodings -/

/-- Decoding what the encoder writes gives the instruction back, for every well-formed instruction that has an encoding
and every value of its operands (R90 to R107), whatever CBW_SIGNATURE is. -/
def Obligations.DecodeOfEncodeIsTheInstruction : Prop :=
  ∀ sig i e, i.wellFormed sig = true → encode i = some e → decode e = .ok i

/-- The other direction: a wire record that decodes is what the encoder writes for it, and a request that decodes has the
head the encoder writes, so that no head has two meanings (R94, R98, R105, R106). -/
def Obligations.EncodeOfDecodeKeepsTheWord : Prop :=
  (∀ b i, decodeWire b = .ok i → encode i = some (.wire b)) ∧
    (∀ q i, decodeBtfe q = .ok i → ∃ q', encode i = some (.btfe q') ∧ q'.head = q.head) ∧
    (∀ q i, decodeOdpp q = .ok i → ∃ q', encode i = some (.odpp q') ∧ q'.head = q.head)

/-- Illegal heads (R105, R106, R108): at the BTFE port a head of 8 or more is rejected for its reserved bits, 6 for ENC = 1
with WRITE_COMMAND_RAW, 3 and 7 are the reserved code; at the ODPP port 4 or more is rejected and 3 is the reserved code. -/
def Obligations.IllegalHeadsAreRejectedByName : Prop :=
  (∀ q : BtfeRequest,
    if 8 ≤ q.head.toNat then decodeBtfe q = .error .reservedHeadBits
    else if q.head.toNat = 6 then decodeBtfe q = .error .encWithRaw
    else if q.head.toNat % 4 = 3 then decodeBtfe q = .ok (.btfeReserved (decide (q.head.toNat = 7)))
    else ∃ i, decodeBtfe q = .ok i) ∧
  ∀ q : OdppRequest,
    if 4 ≤ q.head.toNat then decodeOdpp q = .error .reservedHeadBits
    else if q.head.toNat = 3 then decodeOdpp q = .ok .odppReserved
    else ∃ i, decodeOdpp q = .ok i

/-- A few words written out from the spec decode to what they stand for: B1 of 95_test_vectors.md, C2, and one head for
each request code of either port, the reserved codes among them (R92, R97, R105, R106, R108). -/
def Obligations.WordsOfTheSpecDecode : Prop :=
  decode (.wire [0x55, 0x53, 0x42, 0x43, 0x01, 0x00, 0x00, 0x00, 0x04, 0x00, 0x00, 0x00, 0x80, 0x00, 0x10,
    0x00, 0x01, 0x02, 0x03, 0x04, 0x05, 0x06, 0x07, 0x08, 0x09, 0x0A, 0x0B, 0x0C, 0x0D, 0x0E, 0x0F]) =
    .ok (.cbw ⟨⟨0x55, 0x53, 0x42, 0x43⟩, 1, 4, 0x80, 0, 16,
      [0x00, 0x01, 0x02, 0x03, 0x04, 0x05, 0x06, 0x07, 0x08, 0x09, 0x0A, 0x0B, 0x0C, 0x0D, 0x0E, 0x0F]⟩) ∧
  decode (.wire [0x55, 0x53, 0x42, 0x53, 0xEF, 0xBE, 0xAD, 0xDE, 0x05, 0x00, 0x00, 0x00, 0x01]) =
    .ok (.csw ⟨⟨0x55, 0x53, 0x42, 0x53⟩, 0xDEADBEEF, 5, 1⟩) ∧
  (∀ cmd shape, decode (.btfe ⟨0b00000100, cmd, shape, [], []⟩) = .ok (.readCommand .le cmd shape)) ∧
  (∀ cmd shape value extra,
    decode (.btfe ⟨0b00000001, cmd, shape, value, extra⟩) = .ok (.writeCommand .be cmd shape value extra)) ∧
  (∀ cmd data, decode (.btfe ⟨0b00000010, cmd, [], [], data⟩) = .ok (.writeCommandRaw cmd data)) ∧
  (∀ cmd shape value extra, decode (.btfe ⟨0b00000011, cmd, shape, value, extra⟩) = .ok (.btfeReserved false)) ∧
  (∀ w h x y, decode (.odpp ⟨0b00000000, w, h, x, y⟩) = .ok .matrixInit) ∧
  (∀ x y, decode (.odpp ⟨0b00000001, 0, 0, x, y⟩) = .ok (.lookUp x y)) ∧
  (∀ w h, decode (.odpp ⟨0b00000010, w, h, 0, 0⟩) = .ok (.ditherAndPack w h)) ∧
  (∀ w h x y, decode (.odpp ⟨0b00000011, w, h, x, y⟩) = .ok .odppReserved)

/-- R92 with `le32` of R11 spelled out: the 31 bytes of a command wrapper, each from the bits it is taken from. -/
def Obligations.CommandWrapperBytes : Prop :=
  ∀ (sig : Quad) (tag xlen : Word) (dir : Bool) (cmd : List Byte), cmd.length = 16 →
    encodeCbw sig tag xlen dir cmd =
      [sig.b0, sig.b1, sig.b2, sig.b3,
        tag.extractLsb' 0 8, tag.extractLsb' 8 8, tag.extractLsb' 16 8, tag.extractLsb' 24 8,
        xlen.extractLsb' 0 8, xlen.extractLsb' 8 8, xlen.extractLsb' 16 8, xlen.extractLsb' 24 8,
        if dir then 0x80 else 0x00, 0x00, 0x10] ++ cmd ∧
      (encodeCbw sig tag xlen dir cmd).length = 31

/-- R94: decoding a just-encoded command wrapper gives every field back, and re-encoding the fields of any 31 bytes gives
those bytes. R95: a wrapper as the engine encodes it is well-formed, the tag 0 included, and one with another signature is
not. -/
def Obligations.CommandWrapperRoundTrip : Prop :=
  (∀ (sig : Quad) (tag xlen : Word) (dir : Bool) (cmd : List Byte), cmd.length = 16 →
    cbwFields (encodeCbw sig tag xlen dir cmd) = ⟨sig, tag, xlen, if dir then 0x80 else 0x00, 0, 16, cmd⟩) ∧
  (∀ b : List Byte, b.length = 31 → cbwBytes (cbwFields b) = b) ∧
  (∀ (sig : Quad) (tag xlen : Word) (dir : Bool) (cmd : List Byte), cmd.length = 16 →
    (cbwFields (encodeCbw sig tag xlen dir cmd)).wellFormed sig = true) ∧
  ∀ (sig : Quad) (r : CbwRecord), r.signature ≠ sig → r.wellFormed sig = false

/-- R98: the same for a status wrapper, with the 13 bytes spelled out. -/
def Obligations.StatusWrapperRoundTrip : Prop :=
  (∀ r : CswRecord, cswBytes r =
    [r.signature.b0, r.signature.b1, r.signature.b2, r.signature.b3,
      r.tag.extractLsb' 0 8, r.tag.extractLsb' 8 8, r.tag.extractLsb' 16 8, r.tag.extractLsb' 24 8,
      r.residue.extractLsb' 0 8, r.residue.extractLsb' 8 8, r.residue.extractLsb' 16 8, r.residue.extractLsb' 24 8,
      r.status] ∧ cswFields (cswBytes r) = r) ∧
  ∀ b : List Byte, b.length = 13 → cswBytes (cswFields b) = b

/-- R133: the bytes of a value that fits its shape are those of its fields in order, byte j of a little-endian field being
`v div 256^j mod 256` and a big-endian field its reverse, `sizeof(shape)` bytes in all; its corner cases and its example. -/
def Obligations.EncodedValueBytes : Prop :=
  (∀ (w v j : Nat), j < w → (encodeField .le w v)[j]? = some (BitVec.ofNat 8 (v / 256 ^ j))) ∧
  (∀ w v : Nat, encodeField .be w v = (encodeField .le w v).reverse) ∧
  (∀ (shape : List Nat) (enc : Enc) (value : List Nat), valueFits shape value = true →
    encodeValue shape enc value = (List.zipWith (encodeField enc) shape value).flatten ∧
      (encodeValue shape enc value).length = shapeSize shape) ∧
  (∀ enc, encodeValue [] enc [] = []) ∧
  (∀ v, encodeField .be 1 v = encodeField .le 1 v) ∧
  encodeValue [4, 2] .be [0x00123456, 0x062C] = [0x00, 0x12, 0x34, 0x56, 0x06, 0x2C] ∧
  encodeValue [4, 2] .le [0x00123456, 0x062C] = [0x56, 0x34, 0x12, 0x00, 0x2C, 0x06]

/-- R135: encoding and decoding a typed value undo each other. -/
def Obligations.TypedValueRoundTrip : Prop :=
  (∀ (shape : List Nat) (enc : Enc) (value : List Nat), valueFits shape value = true →
    decodeValue shape enc (encodeValue shape enc value) = some value) ∧
  ∀ (shape : List Nat) (enc : Enc) (buf : List Byte), buf.length = shapeSize shape →
    ∃ value, decodeValue shape enc buf = some value ∧ valueFits shape value = true ∧
      encodeValue shape enc value = buf

/-! ### The step and the instruction it runs -/

/-- A step runs the decoded instruction: a request at a port is decoded and executed on the state without the event, and
refused BadEncoding where the decoder rejects it; at the BTFE's turn the step runs the wrapper in CBWBUF, the status
wrapper that arrives, or the internal action PHASE names, followed by what the sequencer adds (R24, R132, R150). In CSW_IN
that is the arriving wrapper where 13 bytes arrive (of a longer entry of the queue the first 13, log 7) and STATUS_HANDSHAKE
on every other answer and while there is none. In IDLE, and with ODPP_BUSY = 0, a block does nothing (R24, R244). The DATA_IN
and DATA_OUT steps run no instruction of the table; DataInStepReadsThePayload and DataOutStepSendsThePayload say what they do.
The list of outside events is the model's (log 8), and so is running an arriving wrapper as an instruction (log 13). -/
def Obligations.StepRunsTheDecodedInstruction : Prop :=
  (∀ s q rest i, s.inbox = .btfeRequest q :: rest → decode (.btfe q) = .ok i →
    step s = exec i { s with inbox := rest }) ∧
  (∀ s q rest e, s.inbox = .btfeRequest q :: rest → decode (.btfe q) = .error e →
    step s = exec (.btfeReserved false) { s with inbox := rest }) ∧
  (∀ s q rest i, s.inbox = .odppRequest q :: rest → decode (.odpp q) = .ok i →
    step s = exec i { s with inbox := rest }) ∧
  (∀ s q rest e, s.inbox = .odppRequest q :: rest → decode (.odpp q) = .error e →
    step s = exec .odppReserved { s with inbox := rest }) ∧
  (∀ s rest, s.inbox = .btfeTurn :: rest → step s = btfeStep { s with inbox := rest }) ∧
  (∀ s rest, s.inbox = .odppTurn :: rest → step s = odppStep { s with inbox := rest }) ∧
  (∀ s, s.inbox = [] → step s = if s.odpp.busy then odppStep s else btfeStep s) ∧
  (∀ s i, s.cur.btfe.phase = .cbwOut → decode (.wire s.cur.btfe.cbwbuf) = .ok i →
    s.cur.btfe.cbwbuf.length = 31 → btfeStep s = exec i s) ∧
  (∀ s b rest i, s.cur.btfe.phase = .cswIn → s.cur.port.inAns = .data b :: rest → 13 ≤ b.length →
    decode (.wire (b.take 13)) = .ok i →
    btfeStep s = exec i (s.withCur { s.cur with port := { s.cur.port with inAns := rest } })) ∧
  (∀ s, s.cur.btfe.phase = .cswIn → (∀ b rest, s.cur.port.inAns = .data b :: rest → b.length < 13) →
    btfeStep s = exec .statusHandshake s) ∧
  (∀ s, s.cur.btfe.phase = .idle → btfeStep s = .next s) ∧
  (∀ s, s.odpp.busy = false → odppStep s = .next s) ∧
  (∀ s, s.cur.btfe.phase = .clearHalt → btfeStep s = exec .statusHandshake s) ∧
  (∀ s, s.cur.btfe.phase = .tag →
    btfeStep s = andThen (exec .fetchTag s) fun t => t.withCur (buildCbw t.cur)) ∧
  (∀ s, s.cur.btfe.phase = .decode →
    btfeStep s =
      andThen (exec (.decodeValue s.cur.btfe.shape s.cur.btfe.enc (s.cur.btfe.dbuf.take s.cur.btfe.xlen.toNat)) s)
        fun t => t.withCur (afterDecode t.cur))

/-- The very next step after a table word has been placed runs the instruction the decoder reads from it: on the same
state for a request; for a wire record on that state with the record in CBWBUF and PHASE = CBW_OUT, or with
PHASE = CSW_IN. The model's own convention (logs 9, 10, 11). -/
def Obligations.PlacedWordRunsNext : Prop :=
  ∀ (s : State) (nbits w : Nat) (i : Instr), decodeTableWord nbits w = some i →
    step (s.withFetchWord nbits w) =
      exec i
        (if nbits = 248 then
          s.withCur (s.cur.withBtfe { s.cur.btfe with cbwbuf := beBytes 31 w, phase := .cbwOut })
        else if nbits = 104 then s.withCur (s.cur.withBtfe { s.cur.btfe with phase := .cswIn })
        else s)

/-- Executing the status wrapper that has arrived and executing STATUS_HANDSHAKE on the read it answers are the same
(R140, log 13). -/
def Obligations.ArrivingWrapperEqualsHandshake : Prop :=
  ∀ s b rest, s.cur.btfe.phase = .cswIn → s.cur.port.inAns = .data b :: rest → b.length = 13 →
    exec .statusHandshake s =
      exec (.csw (cswFields b)) (s.withCur { s.cur with port := { s.cur.port with inAns := rest } })

/-! ### Acceptance and refusal at the BTFE port (R131, R217) -/

/-- R131 for the three requests: from IDLE with FAULT = 0, a well-encoded request whose length fits 32 bits is accepted:
the operands are latched, a write's payload is in DBUF, ERR_* and CSW_VALID are cleared, PHASE is TAG, nothing else
changes. -/
def Obligations.RequestIsAccepted : Prop :=
  (∀ s enc cmd shape, s.cur.btfe.phase = .idle → s.cur.btfe.fault = false → cmd.length = 16 →
    shapeOk shape = true → shapeSize shape < 2 ^ 32 →
    exec (.readCommand enc cmd shape) s = .next (s.withCur (s.cur.withBtfe
      { s.cur.btfe with
        cmd := cmd, xlen := BitVec.ofNat 32 (shapeSize shape), dir := true, shape := shape, enc := enc
        errKind := 0, errSub := 0, errPhase := 0, cswValid := false, phase := .tag }))) ∧
  (∀ s enc cmd shape value extra, s.cur.btfe.phase = .idle → s.cur.btfe.fault = false → cmd.length = 16 →
    shapeOk shape = true → valueFits shape value = true → shapeSize shape + extra.length < 2 ^ 32 →
    exec (.writeCommand enc cmd shape value extra) s = .next (s.withCur (s.cur.withBtfe
      { s.cur.btfe with
        cmd := cmd, xlen := BitVec.ofNat 32 (shapeSize shape + extra.length), dir := false
        dbuf := encodeValue shape enc value ++ extra, shape := shape, enc := enc
        errKind := 0, errSub := 0, errPhase := 0, cswValid := false, phase := .tag }))) ∧
  (∀ s cmd data, s.cur.btfe.phase = .idle → s.cur.btfe.fault = false → cmd.length = 16 →
    data.length < 2 ^ 32 →
    exec (.writeCommandRaw cmd data) s = .next (s.withCur (s.cur.withBtfe
      { s.cur.btfe with
        cmd := cmd, xlen := BitVec.ofNat 32 data.length, dir := false, dbuf := data, shape := [], enc := .be
        errKind := 0, errSub := 0, errPhase := 0, cswValid := false, phase := .tag })))

/-- R131, R217, R221: the refusals of the three requests, Busy before Faulted before BadEncoding before LengthOverflow; a
refused request changes nothing but what its requester receives. That a shape with a field of width 0 is ill-encoded is
the model's inference (log 28). -/
def Obligations.RequestIsRefused : Prop :=
  ∀ (s : State) (i : Instr) (n : Nat),
    requestsBytes i n →
    (s.cur.btfe.phase ≠ .idle → exec i s = .next (s.withCur (s.cur.reply (.refused .busy)))) ∧
    (s.cur.btfe.phase = .idle → s.cur.btfe.fault = true →
      exec i s = .next (s.withCur (s.cur.reply (.refused .faulted)))) ∧
    (s.cur.btfe.phase = .idle → s.cur.btfe.fault = false → i.wellFormed s.cur.btfe.cfg.cbwSignature = false →
      exec i s = .next (s.withCur (s.cur.reply (.refused .badEncoding)))) ∧
    (s.cur.btfe.phase = .idle → s.cur.btfe.fault = false → i.wellFormed s.cur.btfe.cfg.cbwSignature = true → 2 ^ 32 ≤ n →
      exec i s = .next (s.withCur (s.cur.reply (.refused .lengthOverflow))))

/-- R108: the reserved BTFE code is refused BadEncoding, after Busy and Faulted; nothing else changes. -/
def Obligations.ReservedBtfeCodeIsRefused : Prop :=
  ∀ s e,
    (s.cur.btfe.phase = .idle → s.cur.btfe.fault = false →
      exec (.btfeReserved e) s = .next (s.withCur (s.cur.reply (.refused .badEncoding)))) ∧
    (s.cur.btfe.phase = .idle → s.cur.btfe.fault = true →
      exec (.btfeReserved e) s = .next (s.withCur (s.cur.reply (.refused .faulted)))) ∧
    (s.cur.btfe.phase ≠ .idle → exec (.btfeReserved e) s = .next (s.withCur (s.cur.reply (.refused .busy))))

/-- R158: WRITE_COMMAND_RAW has OPSEL = 2 and ENC = 0 and is WRITE_COMMAND of the empty shape and the empty value, order
BE; accepted, it has DBUF = data, XLEN = len(data) and DIR = 0. -/
def Obligations.RawWriteIsWriteOfEmptyShape : Prop :=
  (∀ s cmd data, exec (.writeCommandRaw cmd data) s = exec (.writeCommand .be cmd [] [] data) s) ∧
  (∀ q : BtfeRequest, q.head = 0b00000010 → decode (.btfe q) = .ok (.writeCommandRaw q.cmd q.extra)) ∧
  ∀ s cmd data, s.cur.btfe.phase = .idle → s.cur.btfe.fault = false → cmd.length = 16 → data.length < 2 ^ 32 →
    ∃ t, exec (.writeCommandRaw cmd data) s = .next t ∧ t.cur.btfe.phase = .tag ∧ t.cur.btfe.dbuf = data ∧
      t.cur.btfe.xlen.toNat = data.length ∧ t.cur.btfe.dir = false

/-- R113: the order does not matter to a write of the empty shape, but for the operand the model keeps (log 12). -/
def Obligations.OrderOfEmptyShapeDoesNotMatter : Prop :=
  ∀ s t cmd data enc, exec (.writeCommandRaw cmd data) s = .next t → t.cur.btfe.phase = .tag →
    s.cur.btfe.phase = .idle →
    exec (.writeCommand enc cmd [] [] data) s = .next (t.withCur (t.cur.withBtfe { t.cur.btfe with enc := enc }))

/-! ### The tag (R22, R130) -/

/-- R130, R132: FETCH_TAG gives the counter's value to TAG and advances the counter modulo 2^32; nothing else changes. That
the value goes to TAG, which R132 writes, is the model's division of the TAG step (log 14). -/
def Obligations.FetchTagReadsAndAdvances : Prop :=
  ∀ s, exec .fetchTag s = .next
    { s with tagctr := BitVec.ofNat 32 (s.tagctr.toNat + 1), cur := s.cur.withBtfe { s.cur.btfe with tag := s.tagctr } }

/-- R130, R230: over all sessions together the tags drawn are the counter's value, that plus 1, plus 2 and so on, and no
two of up to 2^32 draws are equal, however the turns go round. -/
def Obligations.TagsDoNotRepeat : Prop :=
  ∀ (ks : List Nat) (s : State),
    (drawTags ks s).length = ks.length ∧
    (∀ i, i < ks.length → (drawTags ks s)[i]? = some (s.tagctr + BitVec.ofNat 32 i)) ∧
    (ks.length ≤ 2 ^ 32 → (drawTags ks s).Nodup)

/-- R22: a step changes TAGCTR only in the TAG step of the current instance, to its value plus 1, or by global reset. -/
def Obligations.TagCounterMovesOnlyByFetchTag : Prop :=
  ∀ s t, step s = .next t →
    t.tagctr = s.tagctr ∨ (s.cur.btfe.phase = .tag ∧ t.tagctr = s.tagctr + 1) ∨
      ((∃ rest, s.inbox = .globalReset :: rest) ∧ t.tagctr = 1)

/-! ### The steps of an operation -/

/-- R132: the TAG step. -/
def Obligations.TagStepBuildsTheWrapper : Prop :=
  ∀ s, s.cur.btfe.phase = .tag →
    btfeStep s = .next
      { s with
        tagctr := s.tagctr + 1
        cur := s.cur.withBtfe
          { s.cur.btfe with
            tag := s.tagctr
            cbwbuf := encodeCbw s.cur.btfe.cfg.cbwSignature s.tagctr s.cur.btfe.xlen s.cur.btfe.dir s.cur.btfe.cmd
            phase := .cbwOut } }

/-- R132, R213 rows 1 and 2, R218: executing a command wrapper in CBW_OUT sends its 31 bytes in one call; Ok leads to the
data phase DIR names, Stall and Err(k) end the operation with a TransportError recorded with phase 2. -/
def Obligations.CommandWrapperIsSent : Prop :=
  ∀ s r a rest, s.cur.btfe.phase = .cbwOut → s.cur.port.outAns = a :: rest →
    exec (.cbw r) s = .next (s.withCur
      (match a with
      | .ok =>
        { btfe := { s.cur.btfe with phase := if s.cur.btfe.dir then .dataIn else .dataOut }
          port :=
            { s.cur.port with
              outAns := rest
              trace := s.cur.port.trace ++ [.bulkOut s.cur.btfe.cfg.epOut (cbwBytes r) .ok] } }
      | .stall =>
        { btfe := { s.cur.btfe with errKind := 1, errSub := 3, errPhase := 2, phase := .idle }
          port :=
            { s.cur.port with
              outAns := rest
              trace := s.cur.port.trace ++ [.bulkOut s.cur.btfe.cfg.epOut (cbwBytes r) .stall]
              replies := s.cur.port.replies ++ [.transportError .stall] } }
      | .err k =>
        { btfe := { s.cur.btfe with errKind := 1, errSub := errCode k, errPhase := 2, phase := .idle }
          port :=
            { s.cur.port with
              outAns := rest
              trace := s.cur.port.trace ++ [.bulkOut s.cur.btfe.cfg.epOut (cbwBytes r) (.err k)]
              replies := s.cur.port.replies ++ [.transportError k] } }))

/-- R150, R213 rows 3 to 5: the DATA_IN step asks for XLEN bytes; all of them go to DBUF and PHASE to DECODE; fewer is a
ProtocolError that sets FAULT; Stall and Err(k) are TransportErrors; phase 3 is recorded. -/
def Obligations.DataInStepReadsThePayload : Prop :=
  ∀ s a rest, s.cur.btfe.phase = .dataIn → s.cur.port.inAns = a :: rest →
    btfeStep s = .next (s.withCur
      (match a with
      | .data bytes =>
        if s.cur.btfe.xlen.toNat ≤ bytes.length then
          { btfe := { s.cur.btfe with dbuf := bytes.take s.cur.btfe.xlen.toNat, phase := .decode }
            port :=
              { s.cur.port with
                inAns := rest
                trace := s.cur.port.trace ++ [.bulkIn s.cur.btfe.cfg.epIn s.cur.btfe.xlen.toNat
                  (.data (bytes.take s.cur.btfe.xlen.toNat))] } }
        else
          { btfe := { s.cur.btfe with fault := true, errKind := 2, errSub := 0, errPhase := 3, phase := .idle }
            port :=
              { s.cur.port with
                inAns := rest
                trace := s.cur.port.trace ++ [.bulkIn s.cur.btfe.cfg.epIn s.cur.btfe.xlen.toNat (.data bytes)]
                replies := s.cur.port.replies ++ [.protocolError] } }
      | .stall =>
        { btfe := { s.cur.btfe with errKind := 1, errSub := 3, errPhase := 3, phase := .idle }
          port :=
            { s.cur.port with
              inAns := rest
              trace := s.cur.port.trace ++ [.bulkIn s.cur.btfe.cfg.epIn s.cur.btfe.xlen.toNat .stall]
              replies := s.cur.port.replies ++ [.transportError .stall] } }
      | .err k =>
        { btfe := { s.cur.btfe with errKind := 1, errSub := errCode k, errPhase := 3, phase := .idle }
          port :=
            { s.cur.port with
              inAns := rest
              trace := s.cur.port.trace ++ [.bulkIn s.cur.btfe.cfg.epIn s.cur.btfe.xlen.toNat (.err k)]
              replies := s.cur.port.replies ++ [.transportError k] } }))

/-- R155, R213 rows 7 and 8: the DATA_OUT step sends the payload in one call; Ok opens the handshake, Stall and Err(k) are
TransportErrors recorded with phase 4. -/
def Obligations.DataOutStepSendsThePayload : Prop :=
  ∀ s a rest, s.cur.btfe.phase = .dataOut → s.cur.port.outAns = a :: rest →
    s.cur.btfe.dbuf.length = s.cur.btfe.xlen.toNat →
    btfeStep s = .next (s.withCur
      (match a with
      | .ok =>
        { btfe := { s.cur.btfe with phase := .cswIn, rounds := 0 }
          port :=
            { s.cur.port with
              outAns := rest
              trace := s.cur.port.trace ++ [.bulkOut s.cur.btfe.cfg.epOut s.cur.btfe.dbuf .ok] } }
      | .stall =>
        { btfe := { s.cur.btfe with errKind := 1, errSub := 3, errPhase := 4, phase := .idle }
          port :=
            { s.cur.port with
              outAns := rest
              trace := s.cur.port.trace ++ [.bulkOut s.cur.btfe.cfg.epOut s.cur.btfe.dbuf .stall]
              replies := s.cur.port.replies ++ [.transportError .stall] } }
      | .err k =>
        { btfe := { s.cur.btfe with errKind := 1, errSub := errCode k, errPhase := 4, phase := .idle }
          port :=
            { s.cur.port with
              outAns := rest
              trace := s.cur.port.trace ++ [.bulkOut s.cur.btfe.cfg.epOut s.cur.btfe.dbuf (.err k)]
              replies := s.cur.port.replies ++ [.transportError k] } }))

/-- R134: DECODE_VALUE of a buffer of the shape's size holds the decoded value for the requester (in the model's own field,
log 12) and changes nothing else; of any other size it fails, which in DECODE raises ProtocolError with phase 5 (R150, R213
row 6). -/
def Obligations.DecodeValueOrProtocolError : Prop :=
  (∀ (s : State) shape enc (buf : List Byte), buf.length = shapeSize shape →
    ∃ v, decodeValue shape enc buf = some v ∧ valueFits shape v = true ∧
      exec (.decodeValue shape enc buf) s = .next (s.withCur (s.cur.withBtfe { s.cur.btfe with value := v }))) ∧
  ∀ (s : State) shape enc (buf : List Byte), s.cur.btfe.phase = .decode → buf.length ≠ shapeSize shape →
    exec (.decodeValue shape enc buf) s = .next (s.withCur
      { btfe := { s.cur.btfe with fault := true, errKind := 2, errSub := 0, errPhase := 5, phase := .idle }
        port := { s.cur.port with replies := s.cur.port.replies ++ [.protocolError] } })

/-- R134's last sentence of its own inference: in a state that meets the invariant the DECODE step does not fail; it goes on
to the handshake. -/
def Obligations.DecodeStepDoesNotFail : Prop :=
  ∀ s, BtfeInv s.cur.btfe → s.cur.btfe.phase = .decode →
    ∃ v, decodeValue s.cur.btfe.shape s.cur.btfe.enc s.cur.btfe.dbuf = some v ∧
      btfeStep s = .next (s.withCur (s.cur.withBtfe { s.cur.btfe with value := v, phase := .cswIn, rounds := 0 }))

/-- R133 as an action: the bytes of a value that fits its shape go to DBUF, `sizeof(shape)` of them, and nothing else
changes. That the action leaves its bytes in DBUF is the model's reading of R131 (log 13), and so is what it does by itself
with a value that does not fit its shape, which is no operand of R133: it refuses BadEncoding, as acceptance does (logs 13
and 28). -/
def Obligations.EncodeValueFillsTheBuffer : Prop :=
  (∀ s shape enc value, shapeOk shape = true → valueFits shape value = true →
    ∃ bytes, exec (.encodeValue shape enc value) s =
        .next (s.withCur (s.cur.withBtfe { s.cur.btfe with dbuf := bytes })) ∧
      bytes.length = shapeSize shape ∧ decodeValue shape enc bytes = some value) ∧
  ∀ s shape enc value, shapeOk shape = false ∨ valueFits shape value = false →
    exec (.encodeValue shape enc value) s = .next (s.withCur (s.cur.reply (.refused .badEncoding)))

/-- R140, R141, R162 (a): with the optional checks off, a status wrapper that arrives is latched whatever its fields are,
CSW_VALID is set, PHASE is IDLE and the requester receives the value of a read or the completion of a write (R99, R255). The
sequencer runs it in CSW_IN only; that exec does the same in every phase is the model's (log 13). -/
def Obligations.StatusWrapperIsLatched : Prop :=
  ∀ s r, checksOff s.cur.btfe.cfg →
    exec (.csw r) s = .next (s.withCur
      { btfe :=
          { s.cur.btfe with
            cswbuf := cswBytes r, cswSig := r.signature, cswTag := r.tag, cswResidue := r.residue
            cswStatus := r.status, cswValid := true, phase := .idle }
        port :=
          { s.cur.port with
            trace := s.cur.port.trace ++ [.bulkIn s.cur.btfe.cfg.epIn 13 (.data (cswBytes r))]
            replies := s.cur.port.replies ++ [if s.cur.btfe.dir then .okValue s.cur.btfe.value else .okUnit] } })

/-- R141, R213 row 13, R219: a check that is on and fails raises ProtocolError after the registers are latched, so that
CSW_VALID is 1; phase 6 is recorded. The wrapper passes exactly when every check that is on holds. -/
def Obligations.OptionalChecksRaiseAfterLatching : Prop :=
  ∀ s r, s.cur.btfe.phase = .cswIn →
    let bad := (s.cur.btfe.cfg.checkCswSignature = true ∧ r.signature ≠ s.cur.btfe.cfg.cswSignature) ∨
      (s.cur.btfe.cfg.checkCswTag = true ∧ r.tag ≠ s.cur.btfe.tag) ∨
      (s.cur.btfe.cfg.checkCswStatus = true ∧ r.status ≠ 0)
    ∃ t, exec (.csw r) s = .next t ∧ t.cur.btfe.phase = .idle ∧ t.cur.btfe.cswValid = true ∧
      t.cur.btfe.cswSig = r.signature ∧ t.cur.btfe.cswTag = r.tag ∧ t.cur.btfe.cswResidue = r.residue ∧
      t.cur.btfe.cswStatus = r.status ∧
      (bad → t.cur.btfe.fault = true ∧ t.cur.btfe.errKind = 2 ∧ t.cur.btfe.errSub = 0 ∧ t.cur.btfe.errPhase = 6 ∧
        t.cur.port.replies = s.cur.port.replies ++ [.protocolError]) ∧
      (¬ bad → t.cur.btfe.fault = s.cur.btfe.fault ∧ t.cur.btfe.errKind = s.cur.btfe.errKind ∧
        t.cur.port.replies =
          s.cur.port.replies ++ [if s.cur.btfe.dir then .okValue s.cur.btfe.value else .okUnit])

/-- R140, R141, R213 rows 9, 10 and 12: each answer to the handshake's calls. A stall leads to CLEAR_HALT (no retry limit,
the default), a cleared halt back to CSW_IN; 13 bytes are latched and end the operation (checks off, the default); fewer
are a ProtocolError; Err(k) is a TransportError, recorded with phase 6 or 7. -/
def Obligations.HandshakeAnswers : Prop :=
  ∀ s,
    (∀ rest, s.cur.btfe.phase = .cswIn → s.cur.btfe.cfg.retryLimit = none → s.cur.port.inAns = .stall :: rest →
      exec .statusHandshake s = .next (s.withCur
        { btfe := { s.cur.btfe with phase := .clearHalt }
          port :=
            { s.cur.port with
              inAns := rest, trace := s.cur.port.trace ++ [.bulkIn s.cur.btfe.cfg.epIn 13 .stall] } })) ∧
    (∀ rest, s.cur.btfe.phase = .clearHalt → s.cur.port.clearAns = .ok :: rest →
      exec .statusHandshake s = .next (s.withCur
        { btfe := { s.cur.btfe with phase := .cswIn, rounds := s.cur.btfe.rounds + 1 }
          port :=
            { s.cur.port with
              clearAns := rest, trace := s.cur.port.trace ++ [.clearHalt s.cur.btfe.cfg.epIn .ok] } })) ∧
    (∀ k rest, s.cur.btfe.phase = .cswIn → s.cur.port.inAns = .err k :: rest →
      exec .statusHandshake s = .next (s.withCur
        { btfe := { s.cur.btfe with errKind := 1, errSub := errCode k, errPhase := 6, phase := .idle }
          port :=
            { s.cur.port with
              inAns := rest, trace := s.cur.port.trace ++ [.bulkIn s.cur.btfe.cfg.epIn 13 (.err k)]
              replies := s.cur.port.replies ++ [.transportError k] } })) ∧
    (∀ k rest, s.cur.btfe.phase = .clearHalt → s.cur.port.clearAns = .err k :: rest →
      exec .statusHandshake s = .next (s.withCur
        { btfe := { s.cur.btfe with errKind := 1, errSub := errCode k, errPhase := 7, phase := .idle }
          port :=
            { s.cur.port with
              clearAns := rest, trace := s.cur.port.trace ++ [.clearHalt s.cur.btfe.cfg.epIn (.err k)]
              replies := s.cur.port.replies ++ [.transportError k] } })) ∧
    (∀ b rest, s.cur.btfe.phase = .cswIn → checksOff s.cur.btfe.cfg → s.cur.port.inAns = .data b :: rest →
      b.length = 13 →
      exec .statusHandshake s = .next (s.withCur
        { btfe :=
            { s.cur.btfe with
              cswbuf := b, cswSig := (cswFields b).signature, cswTag := (cswFields b).tag
              cswResidue := (cswFields b).residue, cswStatus := (cswFields b).status, cswValid := true
              phase := .idle }
          port :=
            { s.cur.port with
              inAns := rest, trace := s.cur.port.trace ++ [.bulkIn s.cur.btfe.cfg.epIn 13 (.data b)]
              replies :=
                s.cur.port.replies ++ [if s.cur.btfe.dir then .okValue s.cur.btfe.value else .okUnit] } })) ∧
    (∀ b rest, s.cur.btfe.phase = .cswIn → s.cur.port.inAns = .data b :: rest → b.length < 13 →
      exec .statusHandshake s = .next (s.withCur
        { btfe := { s.cur.btfe with fault := true, errKind := 2, errSub := 0, errPhase := 6, phase := .idle }
          port :=
            { s.cur.port with
              inAns := rest, trace := s.cur.port.trace ++ [.bulkIn s.cur.btfe.cfg.epIn 13 (.data b)]
              replies := s.cur.port.replies ++ [.protocolError] } }))

/-- R199 (e): while a port call has not returned, the step leaves the state as it is. The model's convention for an answer
that has not come (log 6). -/
def Obligations.UnansweredCallWaits : Prop :=
  (∀ s r, s.cur.port.outAns = [] → exec (.cbw r) s = .next s) ∧
  (∀ s, s.cur.btfe.phase = .dataOut → s.cur.port.outAns = [] → btfeStep s = .next s) ∧
  (∀ s, s.cur.btfe.phase = .dataIn → s.cur.port.inAns = [] → btfeStep s = .next s) ∧
  (∀ s, s.cur.btfe.phase = .cswIn → s.cur.port.inAns = [] → exec .statusHandshake s = .next s) ∧
  (∀ s, s.cur.btfe.phase = .clearHalt → s.cur.port.clearAns = [] → exec .statusHandshake s = .next s)

/-! ### Whole operations -/

/-- R140 and R142 (a), (b), (c), (f): with no retry limit and the checks off, a handshake whose status reads stall k times
and whose clears succeed ends after exactly k clears and k + 1 reads of 13 bytes on the IN endpoint, with no other call and
no new tag, with the wrapper latched and the operation complete. -/
def Obligations.HandshakeRecoversFromStalls : Prop :=
  ∀ (k : Nat) (s : State) (r : CswRecord) (ins : List InAnswer) (cls : List ClearAnswer),
    s.cur.btfe.phase = .cswIn → s.cur.btfe.cfg.retryLimit = none → checksOff s.cur.btfe.cfg →
    s.cur.port.inAns = List.replicate k .stall ++ .data (cswBytes r) :: ins →
    s.cur.port.clearAns = List.replicate k .ok ++ cls →
    btfeSteps (2 * k + 1) s = .next (s.withCur
      { btfe :=
          { s.cur.btfe with
            cswbuf := cswBytes r, cswSig := r.signature, cswTag := r.tag, cswResidue := r.residue
            cswStatus := r.status, cswValid := true, phase := .idle, rounds := s.cur.btfe.rounds + k }
        port :=
          { s.cur.port with
            inAns := ins, clearAns := cls
            trace := s.cur.port.trace ++
              (List.replicate k [.bulkIn s.cur.btfe.cfg.epIn 13 .stall, .clearHalt s.cur.btfe.cfg.epIn .ok]).flatten ++
              [.bulkIn s.cur.btfe.cfg.epIn 13 (.data (cswBytes r))]
            replies := s.cur.port.replies ++ [if s.cur.btfe.dir then .okValue s.cur.btfe.value else .okUnit] } })

/-- R142 (d), R252: without a retry limit there is no number of rounds after which the handshake must have ended: stalled
and cleared k times, the engine is still in CSW_IN, has returned nothing and drawn no tag. -/
def Obligations.HandshakeHasNoRetryLimit : Prop :=
  ∀ (k : Nat) (s : State), s.cur.btfe.phase = .cswIn → s.cur.btfe.cfg.retryLimit = none →
    s.cur.port.inAns = List.replicate k .stall → s.cur.port.clearAns = List.replicate k .ok →
    ∃ t, btfeSteps (2 * k) s = .next t ∧ t.cur.btfe.phase = .cswIn ∧ t.cur.port.replies = s.cur.port.replies ∧
      t.tagctr = s.tagctr

/-- R140 with RETRY_LIMIT set (D7, not the default): from the start of a handshake, n rounds are allowed and the stall
after them is TransportError(Stall) recorded with phase 6 (R213 row 11). -/
def Obligations.RetryLimitEndsTheHandshake : Prop :=
  ∀ (n : Nat) (s : State) (ins : List InAnswer) (cls : List ClearAnswer),
    s.cur.btfe.phase = .cswIn → s.cur.btfe.cfg.retryLimit = some n → s.cur.btfe.rounds = 0 →
    s.cur.port.inAns = List.replicate (n + 1) .stall ++ ins → s.cur.port.clearAns = List.replicate n .ok ++ cls →
    ∃ t, btfeSteps (2 * n + 1) s = .next t ∧ t.cur.btfe.phase = .idle ∧ t.cur.btfe.errKind = 1 ∧
      t.cur.btfe.errSub = 3 ∧ t.cur.btfe.errPhase = 6 ∧ t.cur.btfe.fault = s.cur.btfe.fault ∧
      t.cur.port.replies = s.cur.port.replies ++ [.transportError .stall] ∧
      t.cur.port.inAns = ins ∧ t.cur.port.clearAns = cls

/-- R150, R151 (a): READ_COMMAND from acceptance to its end, against an environment that takes the wrapper, delivers
sizeof(shape) bytes and then any status wrapper: the requester receives exactly the value those bytes decode to, whatever
the wrapper says; one tag is used, three calls are made, the CSW registers are valid and no error is recorded. -/
def Obligations.ReadCommandRunsToItsValue : Prop :=
  ∀ (s : State) (enc : Enc) (cmd : List Byte) (shape : List Nat) (bytes : List Byte) (r : CswRecord)
    (outs : List OutAnswer) (ins : List InAnswer),
    s.cur.btfe.phase = .idle → s.cur.btfe.fault = false → checksOff s.cur.btfe.cfg →
    cmd.length = 16 → shapeOk shape = true → shapeSize shape < 2 ^ 32 → bytes.length = shapeSize shape →
    s.cur.port.outAns = .ok :: outs → s.cur.port.inAns = .data bytes :: .data (cswBytes r) :: ins →
    ∃ a t v, exec (.readCommand enc cmd shape) s = .next a ∧ a.cur.btfe.phase = .tag ∧ btfeSteps 5 a = .next t ∧
      decodeValue shape enc bytes = some v ∧
      t.cur.port =
        { s.cur.port with
          outAns := outs, inAns := ins
          trace := s.cur.port.trace ++
            [.bulkOut s.cur.btfe.cfg.epOut
              (encodeCbw s.cur.btfe.cfg.cbwSignature s.tagctr (BitVec.ofNat 32 (shapeSize shape)) true cmd) .ok,
              .bulkIn s.cur.btfe.cfg.epIn (shapeSize shape) (.data bytes),
              .bulkIn s.cur.btfe.cfg.epIn 13 (.data (cswBytes r))]
          replies := s.cur.port.replies ++ [.okValue v] } ∧
      t.tagctr = s.tagctr + 1 ∧ t.cur.btfe.phase = .idle ∧ t.cur.btfe.fault = false ∧ t.cur.btfe.errKind = 0 ∧
      t.cur.btfe.cswValid = true ∧ t.cur.btfe.cswSig = r.signature ∧ t.cur.btfe.cswTag = r.tag ∧
      t.cur.btfe.cswResidue = r.residue ∧ t.cur.btfe.cswStatus = r.status ∧ t.cur.btfe.tag = s.tagctr ∧
      t.parked = s.parked ∧ t.odpp = s.odpp ∧ t.odppReplies = s.odppReplies ∧ t.inbox = s.inbox

/-- R155, R156: WRITE_COMMAND from acceptance to its end, against an environment that takes wrapper and payload and then
delivers any status wrapper: the payload is the serialized value followed by the extra bytes, sent in one call. -/
def Obligations.WriteCommandRunsToItsEnd : Prop :=
  ∀ (s : State) (enc : Enc) (cmd : List Byte) (shape value : List Nat) (extra : List Byte) (r : CswRecord)
    (outs : List OutAnswer) (ins : List InAnswer),
    s.cur.btfe.phase = .idle → s.cur.btfe.fault = false → checksOff s.cur.btfe.cfg →
    cmd.length = 16 → shapeOk shape = true → valueFits shape value = true → shapeSize shape + extra.length < 2 ^ 32 →
    s.cur.port.outAns = .ok :: .ok :: outs → s.cur.port.inAns = .data (cswBytes r) :: ins →
    ∃ a t, exec (.writeCommand enc cmd shape value extra) s = .next a ∧ a.cur.btfe.phase = .tag ∧
      btfeSteps 4 a = .next t ∧
      t.cur.port =
        { s.cur.port with
          outAns := outs, inAns := ins
          trace := s.cur.port.trace ++
            [.bulkOut s.cur.btfe.cfg.epOut
              (encodeCbw s.cur.btfe.cfg.cbwSignature s.tagctr (BitVec.ofNat 32 (shapeSize shape + extra.length)) false cmd) .ok,
              .bulkOut s.cur.btfe.cfg.epOut (encodeValue shape enc value ++ extra) .ok,
              .bulkIn s.cur.btfe.cfg.epIn 13 (.data (cswBytes r))]
          replies := s.cur.port.replies ++ [.okUnit] } ∧
      t.tagctr = s.tagctr + 1 ∧ t.cur.btfe.phase = .idle ∧ t.cur.btfe.fault = false ∧ t.cur.btfe.errKind = 0 ∧
      t.cur.btfe.cswValid = true ∧ t.cur.btfe.cswSig = r.signature ∧ t.cur.btfe.cswTag = r.tag ∧
      t.cur.btfe.cswResidue = r.residue ∧ t.cur.btfe.cswStatus = r.status ∧ t.cur.btfe.tag = s.tagctr ∧
      t.parked = s.parked ∧ t.odpp = s.odpp ∧ t.odppReplies = s.odppReplies ∧ t.inbox = s.inbox

/-- R158, R159: WRITE_COMMAND_RAW from acceptance to its end, the empty payload included. -/
def Obligations.WriteCommandRawRunsToItsEnd : Prop :=
  ∀ (s : State) (cmd data : List Byte) (r : CswRecord) (outs : List OutAnswer) (ins : List InAnswer),
    s.cur.btfe.phase = .idle → s.cur.btfe.fault = false → checksOff s.cur.btfe.cfg →
    cmd.length = 16 → data.length < 2 ^ 32 →
    s.cur.port.outAns = .ok :: .ok :: outs → s.cur.port.inAns = .data (cswBytes r) :: ins →
    ∃ a t, exec (.writeCommandRaw cmd data) s = .next a ∧ a.cur.btfe.phase = .tag ∧ btfeSteps 4 a = .next t ∧
      t.cur.port =
        { s.cur.port with
          outAns := outs, inAns := ins
          trace := s.cur.port.trace ++
            [.bulkOut s.cur.btfe.cfg.epOut
              (encodeCbw s.cur.btfe.cfg.cbwSignature s.tagctr (BitVec.ofNat 32 data.length) false cmd) .ok,
              .bulkOut s.cur.btfe.cfg.epOut data .ok,
              .bulkIn s.cur.btfe.cfg.epIn 13 (.data (cswBytes r))]
          replies := s.cur.port.replies ++ [.okUnit] } ∧
      t.tagctr = s.tagctr + 1 ∧ t.cur.btfe.phase = .idle ∧ t.cur.btfe.fault = false ∧ t.cur.btfe.errKind = 0 ∧
      t.cur.btfe.cswValid = true ∧ t.parked = s.parked ∧ t.odpp = s.odpp

/-! ### Whole-machine rules of the BTFE -/

/-- R25: a step of the BTFE moves PHASE only as the table says, and never within an operation back to TAG or CBW_OUT. -/
def Obligations.PhaseMovesOnlyAlongTheTable : Prop :=
  ∀ s t, btfeStep s = .next t → t.cur.btfe.phase ∈ phaseMoves s.cur.btfe.phase

/-- R20, R61, R62, R73, R142 (b): a step of the BTFE makes at most one port call, and the call is the one its phase names;
in the handshake it is never a BulkOut. -/
def Obligations.StepMakesAtMostOneCall : Prop :=
  ∀ s t, BtfeInv s.cur.btfe → btfeStep s = .next t →
    t.cur.port.trace = s.cur.port.trace ∨
      ∃ c, callOf s.cur.btfe c ∧ t.cur.port.trace = s.cur.port.trace ++ [c]

/-- R27 (b), R219, R241: once FAULT is set it stays set through every step but a reset or a hand-over of the turn, and
every request that arrives while the engine is idle is refused Faulted. -/
def Obligations.FaultStaysUntilReset : Prop :=
  (∀ s t, step s = .next t → s.cur.btfe.fault = true →
    (∀ e rest, s.inbox = e :: rest → changesSession e = false) → t.cur.btfe.fault = true) ∧
  ∀ s q rest, s.inbox = .btfeRequest q :: rest → s.cur.btfe.fault = true → s.cur.btfe.phase = .idle →
    step s = .next { s with inbox := rest, cur := s.cur.reply (.refused .faulted) }

/-- R213, R218, D12: every TransportError (a Stall or Err(k) in CBW_OUT, DATA_IN, DATA_OUT, an Err(k) or the stall after
the last round in CSW_IN, an Err(k) in CLEAR_HALT) leaves the engine usable: idle, the error recorded with its phase and
handed on, FAULT as it was, TAGCTR not given back; and whichever well-formed request of a length that fits comes next is
accepted, which clears the record. -/
def Obligations.TransportErrorLeavesTheEngineUsable : Prop :=
  ∀ s k, s.cur.btfe.fault = false → failsWith s.cur k →
    ∃ t, btfeStep s = .next t ∧ t.cur.btfe.phase = .idle ∧ t.cur.btfe.errKind = 1 ∧ t.cur.btfe.errSub = errCode k ∧
      t.cur.btfe.errPhase = phaseCode s.cur.btfe.phase ∧ t.tagctr = s.tagctr ∧ t.cur.btfe.fault = false ∧
      t.cur.port.replies = s.cur.port.replies ++ [.transportError k] ∧
      ∀ i n, requestsBytes i n → i.wellFormed t.cur.btfe.cfg.cbwSignature = true → n < 2 ^ 32 →
        ∃ u, exec i t = .next u ∧ u.cur.btfe.phase = .tag ∧ u.cur.btfe.xlen.toNat = n ∧ u.cur.btfe.errKind = 0 ∧
          u.cur.btfe.errSub = 0 ∧ u.cur.btfe.errPhase = 0 ∧ u.cur.port.replies = t.cur.port.replies

/-- R30, R31: no step changes a configuration. -/
def Obligations.ConfigurationNeverChanges : Prop :=
  ∀ s t, step s = .next t →
    t.odpp.cfg = s.odpp.cfg ∧
    ((t.cur.btfe.cfg :: t.parked.map fun p => p.btfe.cfg).Perm (s.cur.btfe.cfg :: s.parked.map fun p => p.btfe.cfg))

/-- R81, R230: the other sessions are neither read nor written: whatever they are, an instruction does the same to the rest
of the state and leaves them as they are. Only TAGCTR is shared. -/
def Obligations.SessionsShareOnlyTheTagCounter : Prop :=
  ∀ (i : Instr) (s : State) (ps : List Session),
    match exec i s with
    | .next t => t.parked = s.parked ∧ exec i { s with parked := ps } = .next { t with parked := ps }
    | .fault f => exec i { s with parked := ps } = .fault f
    | .refused f => exec i { s with parked := ps } = .refused f

/-- R170, R107: the two blocks share no state. An instruction of the ODPP leaves TAGCTR and every session as they are and
does the same to the rest whatever they are; an instruction of the BTFE leaves the ODPP, its memories and replies among it,
as it is and does the same to the rest whatever it is; neither reads or writes the outside events. -/
def Obligations.BlocksShareNoState : Prop :=
  (∀ i s t, exec i s = .next t →
    t.inbox = s.inbox ∧
      if isOdppInstr i then t.tagctr = s.tagctr ∧ t.cur = s.cur ∧ t.parked = s.parked
      else t.odpp = s.odpp ∧ t.odppReplies = s.odppReplies ∧ t.parked = s.parked) ∧
  (∀ (i : Instr) (s : State) (c : Word) (ss : Session) (ps : List Session) (es : List Input), isOdppInstr i = true →
    match exec i s with
    | .next t => exec i { s with tagctr := c, cur := ss, parked := ps, inbox := es } =
        .next { t with tagctr := c, cur := ss, parked := ps, inbox := es }
    | .fault f => exec i { s with tagctr := c, cur := ss, parked := ps, inbox := es } = .fault f
    | .refused f => exec i { s with tagctr := c, cur := ss, parked := ps, inbox := es } = .refused f) ∧
  ∀ (i : Instr) (s : State) (o : Odpp) (rs : List OdppReply) (es : List Input), isOdppInstr i = false →
    match exec i s with
    | .next t => exec i { s with odpp := o, odppReplies := rs, inbox := es } =
        .next { t with odpp := o, odppReplies := rs, inbox := es }
    | .fault f => exec i { s with odpp := o, odppReplies := rs, inbox := es } = .fault f
    | .refused f => exec i { s with odpp := o, odppReplies := rs, inbox := es } = .refused f

/-! ### Resets and the requester's reads -/

/-- R240 (a): global reset sets TAGCTR to 1, puts every BTFE and the ODPP into the reset state, and leaves GRAY, PACKED and
the configuration of every instance and of the ODPP alone (R30, R35, R38). A ROM table is there at once (R31); without one
THRESH holds nothing. That the outside's queues stay is the model's (log 32), and so is the 0 for an entry that a parameter
table too short does not have (log 26). -/
def Obligations.GlobalResetPutsTheBlocksIntoReset : Prop :=
  ∀ s rest, s.inbox = .globalReset :: rest →
    ∃ t, step s = .next t ∧ t.inbox = rest ∧ t.tagctr = 1 ∧
      t.cur.port = s.cur.port ∧ t.parked.map (·.port) = s.parked.map (·.port) ∧
      t.cur.btfe.cfg = s.cur.btfe.cfg ∧ (t.parked.map fun p => p.btfe.cfg) = (s.parked.map fun p => p.btfe.cfg) ∧
      (∀ p, p = t.cur ∨ p ∈ t.parked →
        p.btfe.phase = .idle ∧ p.btfe.fault = false ∧ p.btfe.cswValid = false ∧ p.btfe.errKind = 0 ∧
          p.btfe.errSub = 0 ∧ p.btfe.errPhase = 0) ∧
      t.odpp.matrixReady = s.odpp.cfg.rom ∧ (s.odpp.cfg.rom = false → ∀ a, Memory.read t.odpp.thresh a = none) ∧
      (s.odpp.cfg.rom = true → ∀ a, a < s.odpp.cfg.side * s.odpp.cfg.side →
        Memory.read t.odpp.thresh a = some (s.odpp.cfg.table.getD a 0)) ∧
      t.odpp.pix = 0 ∧ t.odpp.busy = false ∧ t.odpp.gray = s.odpp.gray ∧ t.odpp.packed = s.odpp.packed ∧
      t.odpp.cfg = s.odpp.cfg

/-- R240 (b), R241, R243: session reset puts PHASE, FAULT, CSW_VALID and ERR_* of the current instance into their reset
values, from every phase, and changes nothing else, TAGCTR among it; nothing is reported. -/
def Obligations.SessionResetClearsTheInstance : Prop :=
  ∀ s rest, s.inbox = .sessionReset :: rest →
    step s = .next
      { s with
        inbox := rest
        cur := s.cur.withBtfe
          { s.cur.btfe with
            phase := .idle, fault := false, cswValid := false, errKind := 0, errSub := 0, errPhase := 0 } }

/-- R28, R29, U32: a read of the CSW registers gives their values exactly when CSW_VALID = 1 and none otherwise; a read of
the error register gives ERR_KIND in bits 1:0, ERR_SUB in 4:2, ERR_PHASE in 7:5; neither changes a register. -/
def Obligations.RegistersAreReadAtThePort : Prop :=
  (∀ s rest, s.inbox = .readCsw :: rest →
    step s = .next
      { s with
        inbox := rest
        cur := s.cur.reply
          (if s.cur.btfe.cswValid then
            .cswRegisters s.cur.btfe.cswSig s.cur.btfe.cswTag s.cur.btfe.cswResidue s.cur.btfe.cswStatus
          else .cswNoValue) }) ∧
  ∀ s rest, s.inbox = .readErr :: rest →
    ∃ e, step s = .next { s with inbox := rest, cur := s.cur.reply (.errRegister e) } ∧
      e.extractLsb' 0 2 = s.cur.btfe.errKind ∧ e.extractLsb' 2 3 = s.cur.btfe.errSub ∧
      e.extractLsb' 5 3 = s.cur.btfe.errPhase

/-! ### The ODPP -/

/-- R171: the first MATRIX_INIT writes every entry (r, c) of the table once, from the parameter, and sets MATRIX_READY; a
second leaves the table alone; a busy block refuses. OPSEL 0 at the ODPP port. That the requester receives a reply (log 31),
and the 0 for an entry that a parameter table too short does not have (log 26), are the
model's own. -/
def Obligations.MatrixInitWritesTheTableOnce : Prop :=
  (∀ q : OdppRequest, q.head = 0b00000000 → decode (.odpp q) = .ok .matrixInit) ∧
  (∀ s, s.odpp.busy = false → s.odpp.matrixReady = false →
    ∃ m, exec .matrixInit s =
        .next ((s.withOdpp { s.odpp with thresh := m, matrixReady := true }).odppReply .initDone) ∧
      m.length = s.odpp.cfg.side * s.odpp.cfg.side ∧ Memory.wf m ∧
      ∀ r c, r < s.odpp.cfg.side → c < s.odpp.cfg.side →
        Memory.read m (r * s.odpp.cfg.side + c) = some (s.odpp.cfg.table.getD (r * s.odpp.cfg.side + c) 0)) ∧
  (∀ s, s.odpp.busy = false → s.odpp.matrixReady = true → exec .matrixInit s = .next (s.odppReply .initDone)) ∧
  ∀ s, s.odpp.busy = true → exec .matrixInit s = .next (s.odppReply (.refused .busy))

/-- R173: LOOK_UP reads THRESH at row `y mod MATRIX_SIDE` and column `x mod MATRIX_SIDE`, the address R84 (d) gives, and
returns that byte; before MATRIX_INIT it is refused NotReady; it changes no state of the block. In a state that meets the
invariant the byte is the parameter table's. OPSEL 1 at the ODPP port. That it is answered also while ODPP_BUSY = 1 is the
model's choice (log 30), and so are the reply's form (log 31) and the 0 for an entry that a parameter table too short does
not have (log 26). -/
def Obligations.LookUpReturnsTheEntry : Prop :=
  (∀ q : OdppRequest, q.head = 0b00000001 → decode (.odpp q) = .ok (.lookUp q.x q.y)) ∧
  (∀ s x y b, s.odpp.matrixReady = true →
    Memory.read s.odpp.thresh ((y.toNat % s.odpp.cfg.side) * s.odpp.cfg.side + x.toNat % s.odpp.cfg.side) = some b →
    exec (.lookUp x y) s = .next (s.odppReply (.threshold b))) ∧
  (∀ s x y, OdppInv s.odpp → s.odpp.matrixReady = true →
    exec (.lookUp x y) s = .next (s.odppReply (.threshold
      (s.odpp.cfg.table.getD
        ((y.toNat % s.odpp.cfg.side) * s.odpp.cfg.side + x.toNat % s.odpp.cfg.side) 0)))) ∧
  ∀ s x y, s.odpp.matrixReady = false → exec (.lookUp x y) s = .next (s.odppReply (.refused .notReady))

/-- R174: the look-up is periodic in the side in both directions, the sums reduced modulo 2^32. -/
def Obligations.LookUpIsPeriodic : Prop :=
  ∀ s x y,
    exec (.lookUp (x + BitVec.ofNat 32 s.odpp.cfg.side) y) s = exec (.lookUp x y) s ∧
      exec (.lookUp x (y + BitVec.ofNat 32 s.odpp.cfg.side)) s = exec (.lookUp x y) s

/-- R175: DITHER_AND_PACK's checks in their order, and what acceptance loads. Of PACKED exactly the bytes of the frame's
space are kept; a byte beyond it holds no value (the model's inference, log 18). -/
def Obligations.DitherIsAcceptedOrRefused : Prop :=
  ∀ s w h,
    let good := w.toNat ≠ 0 ∧ h.toNat ≠ 0 ∧ w.toNat * h.toNat % 8 = 0 ∧
      Memory.holdsFrame s.odpp.gray (w.toNat * h.toNat) = true
    (s.odpp.busy = true → exec (.ditherAndPack w h) s = .next (s.odppReply (.refused .busy))) ∧
    (s.odpp.busy = false → s.odpp.matrixReady = false →
      exec (.ditherAndPack w h) s = .next (s.odppReply (.refused .notReady))) ∧
    (s.odpp.busy = false → s.odpp.matrixReady = true → ¬ good →
      exec (.ditherAndPack w h) s = .next (s.odppReply (.refused .badDimensions))) ∧
    (s.odpp.busy = false → s.odpp.matrixReady = true → good →
      exec (.ditherAndPack w h) s =
          .next (s.withOdpp
            { s.odpp with
              width := w, height := h, pix := 0, busy := true
              packed := Memory.below s.odpp.packed (w.toNat * h.toNat / 8) }) ∧
        ∀ a, Memory.read (Memory.below s.odpp.packed (w.toNat * h.toNat / 8)) a =
          if a < w.toNat * h.toNat / 8 then Memory.read s.odpp.packed a else none)

/-- R176, R177, R178, R179: from an idle ODPP with the table there and a frame of WIDTH * HEIGHT bytes in GRAY,
DITHER_AND_PACK ends after exactly WIDTH * HEIGHT pixels with exactly WIDTH * HEIGHT / 8 bytes, and the bit p mod 8 of byte
p div 8 is 1 iff the sample at p exceeds the threshold of (p mod WIDTH, p div WIDTH), for every pixel p; the requester
receives those bytes and PACKED holds them. OPSEL 2 at the ODPP port. That each pixel is one step is the model's choice
(log 16), and so is the 0 for an entry that a parameter table too short does not have (log 26). -/
def Obligations.DitherPacksTheFrame : Prop :=
  (∀ q : OdppRequest, q.head = 0b00000010 → decode (.odpp q) = .ok (.ditherAndPack q.width q.height)) ∧
  ∀ (s : State) (w h : Word) (g : List Byte),
    OdppInv s.odpp → s.odpp.busy = false → s.odpp.matrixReady = true →
    w.toNat ≠ 0 → h.toNat ≠ 0 → w.toNat * h.toNat % 8 = 0 → g.length = w.toNat * h.toNat →
    s.odpp.gray = Memory.ofBytesFrom 0 g →
    ∃ a t bytes, exec (.ditherAndPack w h) s = .next a ∧ odppSteps (w.toNat * h.toNat) a = .next t ∧
      t.odpp.busy = false ∧ t.odpp.gray = s.odpp.gray ∧ t.odpp.thresh = s.odpp.thresh ∧
      t.odpp.width = w ∧ t.odpp.height = h ∧ t.odpp.matrixReady = true ∧ t.odpp.cfg = s.odpp.cfg ∧
      t.odppReplies = s.odppReplies ++ [.packed bytes] ∧ bytes.length = w.toNat * h.toNat / 8 ∧
      (∀ p, p < w.toNat * h.toNat →
        (bytes.getD (p / 8) 0).getLsbD (p % 8) = whiteAt g (tableBytes s.odpp.cfg) s.odpp.cfg w.toNat p) ∧
      (∀ j, j < bytes.length → Memory.read t.odpp.packed j = bytes[j]?) ∧
      t.tagctr = s.tagctr ∧ t.cur = s.cur ∧ t.parked = s.parked ∧ t.inbox = s.inbox

/-- R176, R179, R33: one pixel step of a busy ODPP writes the one bit of pixel PIX and leaves every other bit of that byte
and every other byte of PACKED as it was; the memories it reads do not change. -/
def Obligations.PixelStepWritesOneBit : Prop :=
  ∀ s, OdppInv s.odpp → s.odpp.busy = true →
    ∃ t sample thr v, odppStep s = .next t ∧ Memory.read s.odpp.gray s.odpp.pix.toNat = some sample ∧
      threshold s.odpp (s.odpp.pix.toNat % s.odpp.width.toNat) (s.odpp.pix.toNat / s.odpp.width.toNat) = some thr ∧
      Memory.read t.odpp.packed (s.odpp.pix.toNat / 8) = some v ∧
      v.getLsbD (s.odpp.pix.toNat % 8) = decide (thr.toNat < sample.toNat) ∧
      (∀ old i, Memory.read s.odpp.packed (s.odpp.pix.toNat / 8) = some old → i < 8 →
        i ≠ s.odpp.pix.toNat % 8 → v.getLsbD i = old.getLsbD i) ∧
      (∀ a, a ≠ s.odpp.pix.toNat / 8 → Memory.read t.odpp.packed a = Memory.read s.odpp.packed a) ∧
      t.odpp.gray = s.odpp.gray ∧ t.odpp.thresh = s.odpp.thresh ∧ t.odpp.matrixReady = true ∧
      t.odpp.width = s.odpp.width ∧ t.odpp.height = s.odpp.height ∧ t.odpp.cfg = s.odpp.cfg ∧
      (if s.odpp.pix.toNat + 1 < pixels s.odpp then
        t.odpp.pix.toNat = s.odpp.pix.toNat + 1 ∧ t.odpp.busy = true ∧ t.odppReplies = s.odppReplies
      else t.odpp.pix = s.odpp.pix ∧ t.odpp.busy = false)

/-- R34, R224: the ODPP has no error state. In a state that meets its invariant no instruction of the ODPP and no step of it
stops the machine. -/
def Obligations.OdppHasNoErrorState : Prop :=
  (∀ i s, isOdppInstr i = true → OdppInv s.odpp → ∃ t, exec i s = .next t) ∧
    ∀ s, OdppInv s.odpp → ∃ t, odppStep s = .next t

/-- R108: the reserved ODPP code is refused BadEncoding and nothing of the block changes. That no other check comes first
is the model's choice (log 30). -/
def Obligations.ReservedOdppCodeIsRefused : Prop :=
  ∀ s, exec .odppReserved s = .next (s.odppReply (.refused .badEncoding))

/-- R83, R257, U39: GRAY written or PACKED read while the ODPP is busy is a race, on which the model stops by name; GRAY
handed over while it is idle is a frame of exactly the bytes given, and a byte of PACKED that holds a value is read. -/
def Obligations.FrameMemoriesAtThePort : Prop :=
  (∀ (s : State) rest g, s.inbox = .loadGray g :: rest →
    if s.odpp.busy then step s = .fault .grayRace
    else ∃ m, step s = .next { s with inbox := rest, odpp := { s.odpp with gray := m } } ∧
      Memory.holdsFrame m g.length = true ∧ ∀ i, Memory.read m i = g[i]?) ∧
  ∀ (s : State) rest a, s.inbox = .readPacked a :: rest →
    if s.odpp.busy then step s = .fault .packedRace
    else
      match Memory.read s.odpp.packed a with
      | some b => step s = .next { s with inbox := rest, odppReplies := s.odppReplies ++ [.packedByte b] }
      | none => step s = .fault (.packedUnwritten a)
end

