-- ==== Sys2Proof/Laws/Codec.lean ====
section
/-! SUPPORT. Byte orders: lengths, and that each order and its inverse undo each other (spec/00_scope.md R11). -/

namespace Sys2Proof

@[simp] theorem length_leBytes (w v : Nat) : (leBytes w v).length = w := by
  induction w generalizing v with
  | zero => rfl
  | succ w ih => simp [leBytes, ih]

@[simp] theorem length_beBytes (w v : Nat) : (beBytes w v).length = w := by simp [beBytes]

@[simp] theorem length_le32 (v : Word) : (le32 v).length = 4 := length_leBytes 4 _

@[simp] theorem length_quad (q : Quad) : q.bytes.length = 4 := rfl

theorem unleBytes_leBytes (w v : Nat) : unleBytes (leBytes w v) = v % 256 ^ w := by
  induction w generalizing v with
  | zero => simp [leBytes, unleBytes, Nat.mod_one]
  | succ w ih =>
    simp only [leBytes, unleBytes, ih, BitVec.toNat_ofNat]
    exact (Nat.pow_succ' (n := w) (m := 256) ▸ Nat.mod_mul (x := v) (a := 256) (b := 256 ^ w)).symm

theorem unbeBytes_beBytes (w v : Nat) : unbeBytes (beBytes w v) = v % 256 ^ w := by
  simp [unbeBytes, beBytes, unleBytes_leBytes]

theorem leBytes_unleBytes (b : List Byte) : leBytes b.length (unleBytes b) = b := by
  induction b with
  | nil => rfl
  | cons x t ih =>
    have hx := x.isLt
    have h1 : BitVec.ofNat 8 (x.toNat + 256 * unleBytes t) = x := by
      apply BitVec.eq_of_toNat_eq; simp only [BitVec.toNat_ofNat]; omega
    have h2 : (x.toNat + 256 * unleBytes t) / 256 = unleBytes t := by omega
    simp only [List.length_cons, leBytes, unleBytes, h1, h2, ih]

theorem beBytes_unbeBytes (b : List Byte) : beBytes b.length (unbeBytes b) = b := by
  have h := leBytes_unleBytes b.reverse
  simp only [List.length_reverse] at h
  simp [beBytes, unbeBytes, h]

theorem unleBytes_lt (b : List Byte) : unleBytes b < 256 ^ b.length := by
  induction b with
  | nil => simp [unleBytes]
  | cons x t ih =>
    have hx := x.isLt
    simp only [unleBytes, List.length_cons, Nat.pow_succ']
    omega

theorem unbeBytes_lt (b : List Byte) : unbeBytes b < 256 ^ b.length := by
  have := unleBytes_lt b.reverse
  simpa [unbeBytes] using this

@[simp] theorem unle32_le32 (v : Word) : unle32 (le32 v) = v := by
  have hv := v.isLt
  apply BitVec.eq_of_toNat_eq
  simp only [unle32, le32, unleBytes_leBytes, BitVec.toNat_ofNat]
  omega

theorem le32_unle32 (b : List Byte) (h : b.length = 4) : le32 (unle32 b) = b := by
  have hb := unleBytes_lt b
  rw [h] at hb
  have h' : (BitVec.ofNat 32 (unleBytes b)).toNat = unleBytes b := by
    rw [BitVec.toNat_ofNat]; omega
  have := leBytes_unleBytes b
  rw [h] at this
  simp only [le32, unle32, h', this]

/-- A list of n elements, spelled out. -/
theorem exists_of_length_succ {α : Type} (n : Nat) (l : List α) (h : l.length = n + 1) :
    ∃ a t, l = a :: t ∧ t.length = n := by
  cases l with
  | nil => simp at h
  | cons a t => exact ⟨a, t, rfl, by simpa using h⟩

theorem quadOf_bytes (q : Quad) : quadOf q.bytes = q := rfl

theorem bytes_quadOf (b : List Byte) (h : b.length = 4) : (quadOf b).bytes = b := by
  match b, h with
  | [_, _, _, _], _ => rfl

end Sys2Proof

namespace Sys2Proof.Machine

@[simp] theorem length_encodeField (enc : Enc) (w v : Nat) : (encodeField enc w v).length = w := by
  cases enc <;> simp [encodeField]

theorem decodeField_encodeField (enc : Enc) (w v : Nat) (h : v < 2 ^ (8 * w)) :
    decodeField enc (encodeField enc w v) = v := by
  have hp : (256 : Nat) ^ w = 2 ^ (8 * w) := by rw [show (256 : Nat) = 2 ^ 8 by norm_num, ← Nat.pow_mul]
  cases enc
  · rw [decodeField, encodeField, unbeBytes_beBytes, hp, Nat.mod_eq_of_lt h]
  · rw [decodeField, encodeField, unleBytes_leBytes, hp, Nat.mod_eq_of_lt h]

theorem encodeField_decodeField (enc : Enc) (b : List Byte) :
    encodeField enc b.length (decodeField enc b) = b := by
  cases enc
  · exact beBytes_unbeBytes b
  · exact leBytes_unleBytes b

theorem decodeField_lt (enc : Enc) (b : List Byte) : decodeField enc b < 2 ^ (8 * b.length) := by
  have hp : (256 : Nat) ^ b.length = 2 ^ (8 * b.length) := by
    rw [show (256 : Nat) = 2 ^ 8 by norm_num, ← Nat.pow_mul]
  rw [← hp]
  cases enc
  · exact unbeBytes_lt b
  · exact unleBytes_lt b

/-- A value that fits its shape has one number for each field. -/
theorem valueFits_length (shape value : List Nat) (h : valueFits shape value = true) :
    value.length = shape.length := by
  induction shape generalizing value with
  | nil => cases value with
    | nil => rfl
    | cons => simp [valueFits] at h
  | cons w ws ih =>
    cases value with
    | nil => simp [valueFits] at h
    | cons v vs =>
      simp only [valueFits, Bool.and_eq_true] at h
      simp [ih vs h.2]

/-- The bytes of a value are as many as its shape says (R133). -/
theorem length_encodeValue (shape : List Nat) (enc : Enc) (value : List Nat) (h : valueFits shape value = true) :
    (encodeValue shape enc value).length = shapeSize shape := by
  induction shape generalizing value with
  | nil => rfl
  | cons w ws ih =>
    cases value with
    | nil => simp [valueFits] at h
    | cons v vs =>
      simp only [valueFits, Bool.and_eq_true] at h
      simp [encodeValue, shapeSize, ih vs h.2]

end Sys2Proof.Machine
end

