-- ==== Sys2Proof/Laws/Memory.lean ====
section
/-! SUPPORT. The memory operations: each keeps the canonical form, and what a read gives after each. -/

namespace Sys2Proof.Machine

/-- A head below every address of a memory is no address of it. -/
theorem Memory.read_none_of_lt (m : Memory) (a : Nat) (h : ∀ c ∈ m, a < c.1) : Memory.read m a = none := by
  induction m with
  | nil => rfl
  | cons c m ih =>
    have hc : ¬ c.1 = a := by have := h c (by simp); omega
    simp only [Memory.read, hc, if_false]
    exact ih fun d hd => h d (by simp [hd])

theorem Memory.mem_write (m : Memory) (a : Nat) (v : Byte) (c : Host.Cell) (h : c ∈ Memory.write m a v) :
    c = (a, v) ∨ c ∈ m := by
  induction m with
  | nil => simpa [Memory.write] using h
  | cons d m ih =>
    simp only [Memory.write] at h
    split at h
    · simpa using h
    · split at h
      · rcases List.mem_cons.mp h with h | h
        · exact .inl h
        · exact .inr (by simp [h])
      · rcases List.mem_cons.mp h with h | h
        · exact .inr (by simp [h])
        · rcases ih h with h | h
          · exact .inl h
          · exact .inr (by simp [h])

/-- A write keeps the canonical form. -/
theorem Memory.write_wf (m : Memory) (a : Nat) (v : Byte) (h : Memory.wf m) : Memory.wf (Memory.write m a v) := by
  induction m with
  | nil => simp [Memory.wf, Memory.write]
  | cons c m ih =>
    obtain ⟨hc, hm⟩ := List.pairwise_cons.mp h
    simp only [Memory.write]
    split
    · next hlt =>
      refine List.pairwise_cons.mpr ⟨fun d hd => ?_, h⟩
      rcases List.mem_cons.mp hd with rfl | hd
      · exact hlt
      · exact lt_trans hlt (hc d hd)
    · split
      · next heq => exact List.pairwise_cons.mpr ⟨fun d hd => heq ▸ hc d hd, hm⟩
      · next hle hne =>
        refine List.pairwise_cons.mpr ⟨fun d hd => ?_, ih hm⟩
        rcases Memory.mem_write m a v d hd with rfl | hd
        · show c.1 < a; omega
        · exact hc d hd

theorem Memory.mem_ofBytesFrom (a : Nat) (bs : List Byte) (c : Host.Cell) (h : c ∈ Memory.ofBytesFrom a bs) :
    a ≤ c.1 := by
  induction bs generalizing a with
  | nil => simp [Memory.ofBytesFrom] at h
  | cons b t ih =>
    rcases List.mem_cons.mp h with rfl | h
    · exact le_rfl
    · have := ih (a + 1) h; omega

/-- A byte sequence laid out from an address has the canonical form. -/
theorem Memory.ofBytesFrom_wf (a : Nat) (bs : List Byte) : Memory.wf (Memory.ofBytesFrom a bs) := by
  induction bs generalizing a with
  | nil => exact List.Pairwise.nil
  | cons b t ih =>
    exact List.pairwise_cons.mpr ⟨fun d hd => Memory.mem_ofBytesFrom (a + 1) t d hd, ih (a + 1)⟩

/-- Cutting a memory off keeps the canonical form. -/
theorem Memory.below_wf (m : Memory) (n : Nat) (h : Memory.wf m) : Memory.wf (Memory.below m n) :=
  List.Pairwise.filter _ h

/-- Writing a bit keeps the canonical form. -/
theorem Memory.setBit_wf (m : Memory) (a k : Nat) (b : Bool) (h : Memory.wf m) :
    Memory.wf (Memory.setBit m a k b) := Memory.write_wf _ _ _ h

/-- A read after a write to the same address gives the byte written. -/
theorem Memory.read_write_same (m : Memory) (a : Nat) (v : Byte) :
    Memory.read (Memory.write m a v) a = some v := by
  induction m with
  | nil => simp [Memory.write, Memory.read]
  | cons c m ih =>
    simp only [Memory.write]
    split
    · simp [Memory.read]
    · split
      · simp [Memory.read]
      · next hne => simp [Memory.read, hne, ih]

/-- A write leaves every other address as it was. -/
theorem Memory.read_write_other (m : Memory) (a b : Nat) (v : Byte) (h : b ≠ a) :
    Memory.read (Memory.write m a v) b = Memory.read m b := by
  have h' : ¬ a = b := fun e => h e.symm
  induction m with
  | nil => simp [Memory.write, Memory.read, h']
  | cons c m ih =>
    simp only [Memory.write]
    split
    · simp [Memory.read, h']
    · split
      · next heq => simp [Memory.read, heq, h']
      · simp only [Memory.read, ih]

/-- A sequence laid out from `a` reads back. -/
theorem Memory.read_ofBytesFrom (a : Nat) (bs : List Byte) (i : Nat) :
    Memory.read (Memory.ofBytesFrom a bs) (a + i) = bs[i]? := by
  induction bs generalizing a i with
  | nil => simp [Memory.ofBytesFrom, Memory.read]
  | cons b t ih =>
    cases i with
    | zero => simp [Memory.ofBytesFrom, Memory.read]
    | succ i =>
      have := ih (a + 1) i
      simp only [Memory.ofBytesFrom, Memory.read]
      rw [if_neg (by omega), show a + (i + 1) = a + 1 + i by omega, this]
      simp

theorem Memory.length_ofBytesFrom (a : Nat) (bs : List Byte) : (Memory.ofBytesFrom a bs).length = bs.length := by
  induction bs generalizing a with
  | nil => rfl
  | cons b t ih => simp [Memory.ofBytesFrom, ih]

theorem Memory.runsFrom_ofBytesFrom (a : Nat) (bs : List Byte) :
    Memory.runsFrom a (Memory.ofBytesFrom a bs) = true := by
  induction bs generalizing a with
  | nil => rfl
  | cons b t ih => simp [Memory.ofBytesFrom, Memory.runsFrom, ih]

/-- A frame handed over is a frame of its own length. -/
theorem Memory.holdsFrame_ofBytes (bs : List Byte) :
    Memory.holdsFrame (Memory.ofBytesFrom 0 bs) bs.length = true := by
  simp [Memory.holdsFrame, Memory.length_ofBytesFrom, Memory.runsFrom_ofBytesFrom]

theorem Memory.read_runsFrom (m : Memory) (a i : Nat) (h : Memory.runsFrom a m = true) (hi : i < m.length) :
    ∃ b, Memory.read m (a + i) = some b := by
  induction m generalizing a i with
  | nil => simp at hi
  | cons c m ih =>
    simp only [Memory.runsFrom, Bool.and_eq_true, decide_eq_true_eq] at h
    cases i with
    | zero => exact ⟨c.2, by simp [Memory.read, h.1]⟩
    | succ i =>
      obtain ⟨b, hb⟩ := ih (a + 1) i h.2 (by simpa using hi)
      refine ⟨b, ?_⟩
      simp only [Memory.read, h.1]
      rw [if_neg (by omega), show a + (i + 1) = a + 1 + i by omega, hb]

/-- Every byte of a whole frame holds a value. -/
theorem Memory.read_frame (m : Memory) (n i : Nat) (h : Memory.holdsFrame m n = true) (hi : i < n) :
    ∃ b, Memory.read m i = some b := by
  simp only [Memory.holdsFrame, Bool.and_eq_true, decide_eq_true_eq] at h
  have := Memory.read_runsFrom m 0 i h.2 (by omega)
  simpa using this

/-- Cutting a memory off at n leaves the addresses below n as they were. -/
theorem Memory.read_below (m : Memory) (n a : Nat) (h : a < n) : Memory.read (Memory.below m n) a = Memory.read m a := by
  induction m with
  | nil => rfl
  | cons c m ih =>
    by_cases hc : c.1 < n
    · simp only [Memory.below, List.filter_cons, hc, decide_true, if_true, Memory.read] at ih ⊢
      rw [ih]
    · have hne : ¬ c.1 = a := by omega
      simp only [Memory.below, List.filter_cons, hc, decide_false, Memory.read, hne, if_false] at ih ⊢
      exact ih

/-- At n and above, a memory cut off at n holds no value. -/
theorem Memory.read_below_of_le (m : Memory) (n a : Nat) (h : n ≤ a) : Memory.read (Memory.below m n) a = none := by
  induction m with
  | nil => rfl
  | cons c m ih =>
    by_cases hc : c.1 < n
    · have hne : ¬ c.1 = a := by omega
      simp only [Memory.below, List.filter_cons, hc, decide_true, if_true, Memory.read, hne, if_false] at ih ⊢
      exact ih
    · simp only [Memory.below, List.filter_cons, hc, decide_false] at ih ⊢
      exact ih

/-- Writing a bit leaves every other byte as it was. -/
theorem Memory.read_setBit_other (m : Memory) (a k : Nat) (b : Bool) (c : Nat) (h : c ≠ a) :
    Memory.read (Memory.setBit m a k b) c = Memory.read m c := Memory.read_write_other _ _ _ _ h

/-- A byte that holds a value is that value. -/
theorem Memory.byteAt_of_read {m : Memory} {a : Nat} {b : Byte} (h : Memory.read m a = some b) :
    Memory.byteAt m a = b := by simp [Memory.byteAt, h]

/-- The byte a bit is written into. -/
theorem Memory.read_setBit_same (m : Memory) (a k : Nat) (b : Bool) :
    ∃ v, Memory.read (Memory.setBit m a k b) a = some v ∧
      ∀ i, i < 8 → v.getLsbD i = if i = k then b else (Memory.byteAt m a).getLsbD i := by
  refine ⟨_, Memory.read_write_same _ _ _, fun i hi => ?_⟩
  cases b
  · simp only [Bool.false_eq_true, if_false, BitVec.getLsbD_and, BitVec.getLsbD_not, BitVec.getLsbD_shiftLeft, hi,
      decide_true, Bool.true_and, BitVec.getLsbD_one]
    by_cases hik : i = k
    · subst hik; simp
    · have : ¬ (¬ i < k ∧ i - k = 0) := by omega
      by_cases h1 : i < k
      · simp [hik, h1]
      · have h2 : ¬ i - k = 0 := by omega
        simp [hik, h1, h2]
  · simp only [if_true, BitVec.getLsbD_or, BitVec.getLsbD_shiftLeft, hi, decide_true, Bool.true_and, BitVec.getLsbD_one]
    by_cases hik : i = k
    · subst hik; simp
    · by_cases h1 : i < k
      · simp [hik, h1]
      · have h2 : ¬ i - k = 0 := by omega
        simp [hik, h1, h2]

end Sys2Proof.Machine
end

