-- ==== Sys2Proof/Laws/State.lean ====
section
/-! SUPPORT. One lemma per field of every named update of State, Session and Btfe, true by rfl, so that no proof unfolds a
record update. -/

namespace Sys2Proof.Machine

variable (s : State) (ss : Session) (b : Btfe) (o : Odpp) (p : Phase) (r : BtfeReply) (q : OdppReply) (c : PortCall)

@[simp] theorem State.withCur_cur : (s.withCur ss).cur = ss := rfl
@[simp] theorem State.withCur_tagctr : (s.withCur ss).tagctr = s.tagctr := rfl
@[simp] theorem State.withCur_parked : (s.withCur ss).parked = s.parked := rfl
@[simp] theorem State.withCur_odpp : (s.withCur ss).odpp = s.odpp := rfl
@[simp] theorem State.withCur_odppReplies : (s.withCur ss).odppReplies = s.odppReplies := rfl
@[simp] theorem State.withCur_inbox : (s.withCur ss).inbox = s.inbox := rfl

@[simp] theorem State.withOdpp_cur : (s.withOdpp o).cur = s.cur := rfl
@[simp] theorem State.withOdpp_tagctr : (s.withOdpp o).tagctr = s.tagctr := rfl
@[simp] theorem State.withOdpp_parked : (s.withOdpp o).parked = s.parked := rfl
@[simp] theorem State.withOdpp_odpp : (s.withOdpp o).odpp = o := rfl
@[simp] theorem State.withOdpp_odppReplies : (s.withOdpp o).odppReplies = s.odppReplies := rfl
@[simp] theorem State.withOdpp_inbox : (s.withOdpp o).inbox = s.inbox := rfl

@[simp] theorem State.odppReply_cur : (s.odppReply q).cur = s.cur := rfl
@[simp] theorem State.odppReply_tagctr : (s.odppReply q).tagctr = s.tagctr := rfl
@[simp] theorem State.odppReply_parked : (s.odppReply q).parked = s.parked := rfl
@[simp] theorem State.odppReply_odpp : (s.odppReply q).odpp = s.odpp := rfl
@[simp] theorem State.odppReply_odppReplies : (s.odppReply q).odppReplies = s.odppReplies ++ [q] := rfl
@[simp] theorem State.odppReply_inbox : (s.odppReply q).inbox = s.inbox := rfl

@[simp] theorem Session.withBtfe_btfe : (ss.withBtfe b).btfe = b := rfl
@[simp] theorem Session.withBtfe_port : (ss.withBtfe b).port = ss.port := rfl

@[simp] theorem Session.toPhase_phase : (ss.toPhase p).btfe.phase = p := rfl
@[simp] theorem Session.toPhase_btfe : (ss.toPhase p).btfe = { ss.btfe with phase := p } := rfl
@[simp] theorem Session.toPhase_port : (ss.toPhase p).port = ss.port := rfl

@[simp] theorem Session.reply_btfe : (ss.reply r).btfe = ss.btfe := rfl
@[simp] theorem Session.reply_replies : (ss.reply r).port.replies = ss.port.replies ++ [r] := rfl
@[simp] theorem Session.reply_trace : (ss.reply r).port.trace = ss.port.trace := rfl
@[simp] theorem Session.reply_outAns : (ss.reply r).port.outAns = ss.port.outAns := rfl
@[simp] theorem Session.reply_inAns : (ss.reply r).port.inAns = ss.port.inAns := rfl
@[simp] theorem Session.reply_clearAns : (ss.reply r).port.clearAns = ss.port.clearAns := rfl

@[simp] theorem Session.log_btfe : (ss.log c).btfe = ss.btfe := rfl
@[simp] theorem Session.log_replies : (ss.log c).port.replies = ss.port.replies := rfl
@[simp] theorem Session.log_trace : (ss.log c).port.trace = ss.port.trace ++ [c] := rfl
@[simp] theorem Session.log_outAns : (ss.log c).port.outAns = ss.port.outAns := rfl
@[simp] theorem Session.log_inAns : (ss.log c).port.inAns = ss.port.inAns := rfl
@[simp] theorem Session.log_clearAns : (ss.log c).port.clearAns = ss.port.clearAns := rfl

@[simp] theorem takeAnswer_btfe : (takeAnswer ss).btfe = ss.btfe := rfl
@[simp] theorem takeAnswer_trace : (takeAnswer ss).port.trace = ss.port.trace := rfl
@[simp] theorem takeAnswer_replies : (takeAnswer ss).port.replies = ss.port.replies := rfl

/-! What raising an error and ending an operation do (R162, R218, R219). -/

@[simp] theorem raiseTransport_btfe (k : ErrKind) :
    (raiseTransport ss k).btfe = recordTransport k ss.btfe := rfl
@[simp] theorem raiseTransport_replies (k : ErrKind) :
    (raiseTransport ss k).port.replies = ss.port.replies ++ [.transportError k] := rfl
@[simp] theorem raiseTransport_trace (k : ErrKind) : (raiseTransport ss k).port.trace = ss.port.trace := rfl
@[simp] theorem raiseProtocol_btfe : (raiseProtocol ss).btfe = recordProtocol ss.btfe := rfl
@[simp] theorem raiseProtocol_replies :
    (raiseProtocol ss).port.replies = ss.port.replies ++ [.protocolError] := rfl
@[simp] theorem raiseProtocol_trace : (raiseProtocol ss).port.trace = ss.port.trace := rfl
@[simp] theorem endOperation_btfe : (endOperation ss).btfe = { ss.btfe with phase := .idle } := rfl
@[simp] theorem endOperation_replies :
    (endOperation ss).port.replies = ss.port.replies ++ [result ss.btfe] := rfl
@[simp] theorem endOperation_trace : (endOperation ss).port.trace = ss.port.trace := rfl
@[simp] theorem refuse_btfe (e : BtfeRefusal) : (refuse ss e).btfe = ss.btfe := rfl
@[simp] theorem refuse_replies (e : BtfeRefusal) :
    (refuse ss e).port.replies = ss.port.replies ++ [.refused e] := rfl
@[simp] theorem refuse_trace (e : BtfeRefusal) : (refuse ss e).port.trace = ss.port.trace := rfl

end Sys2Proof.Machine
end

