-- ==== Sys2Proof/Laws/Dither.lean ====
section
/-! SUPPORT. The ODPP: where its table addresses lie, what a look-up gives in a state that meets the invariant, and all a
pixel step can do. -/

namespace Sys2Proof.Machine

open Sys2Proof.Safety

theorem side_pos (c : OdppConfig) : 0 < c.side := Nat.two_pow_pos _

/-- A threshold's address lies inside the table (R66, R84 d). -/
theorem thresholdAddr_lt (c : OdppConfig) (x y : Nat) : thresholdAddr c x y < c.side * c.side := by
  have hy := Nat.mod_lt y (side_pos c)
  have hx := Nat.mod_lt x (side_pos c)
  unfold thresholdAddr
  nlinarith

@[simp] theorem length_tableBytes (c : OdppConfig) : (tableBytes c).length = c.side * c.side := by simp [tableBytes]

/-- Once the table is there, every look-up finds the parameter table's entry (R31, R173). -/
theorem threshold_of_inv (o : Odpp) (h : OdppInv o) (hr : o.matrixReady = true) (x y : Nat) :
    threshold o x y = some ((tableBytes o.cfg).getD (thresholdAddr o.cfg x y) 0) := by
  have hlt := thresholdAddr_lt o.cfg x y
  have hread := Memory.read_ofBytesFrom 0 (tableBytes o.cfg) (thresholdAddr o.cfg x y)
  rw [Nat.zero_add] at hread
  rw [threshold, h.table hr, hread]
  simp [hlt]

/-- The number of pixels fits the 64 bits of PIX (R33, R180). -/
theorem pixels_lt (o : Odpp) : pixels o < 2 ^ 64 := by
  have hw := o.width.isLt
  have hh := o.height.isLt
  unfold pixels
  nlinarith

/-- What the end of a pixel step may change: PIX, or ODPP_BUSY and the reply. -/
theorem advancePixel_cases (s : State) :
    advancePixel s = s.withOdpp { s.odpp with pix := s.odpp.pix + 1 } ∨
      advancePixel s = (s.withOdpp { s.odpp with busy := false }).odppReply
        (.packed (Memory.bytes s.odpp.packed (pixels s.odpp / 8))) := by
  unfold advancePixel
  split
  · exact .inl rfl
  · exact .inr rfl

/-- All a step of the ODPP can do: nothing where it is idle; else, where it goes on, the bit of pixel PIX is written from
the sample and the threshold read, and PIX or ODPP_BUSY moves. -/
theorem odppStep_cases (s t : State) (h : odppStep s = .next t) :
    (s.odpp.busy = false ∧ t = s) ∨
      ∃ sample thr, s.odpp.busy = true ∧ Memory.read s.odpp.gray s.odpp.pix.toNat = some sample ∧
        threshold s.odpp (s.odpp.pix.toNat % s.odpp.width.toNat) (s.odpp.pix.toNat / s.odpp.width.toNat) = some thr ∧
        t = advancePixel (s.withOdpp (putPixel s.odpp s.odpp.pix.toNat (isWhite sample thr))) := by
  unfold odppStep at h
  split at h
  · next hb =>
    unfold pixelStep at h
    simp only at h
    split at h
    · cases h
    · next sample hs =>
      split at h
      · cases h
      · next thr ht =>
        cases h
        exact .inr ⟨sample, thr, hb, hs, ht, rfl⟩
  · next hb =>
    cases h
    exact .inl ⟨by simpa using hb, rfl⟩

/-- A step of the ODPP touches nothing outside the ODPP, and of it neither the table, GRAY nor the configuration (R170). -/
theorem odppStep_frame (s t : State) (h : odppStep s = .next t) :
    t.tagctr = s.tagctr ∧ t.cur = s.cur ∧ t.parked = s.parked ∧ t.inbox = s.inbox ∧ t.odpp.thresh = s.odpp.thresh ∧
      t.odpp.gray = s.odpp.gray ∧ t.odpp.cfg = s.odpp.cfg := by
  rcases odppStep_cases s t h with ⟨-, rfl⟩ | ⟨sample, thr, -, -, -, rfl⟩
  · exact ⟨rfl, rfl, rfl, rfl, rfl, rfl, rfl⟩
  · rcases advancePixel_cases (s.withOdpp (putPixel s.odpp s.odpp.pix.toNat (isWhite sample thr))) with h | h <;>
      rw [h] <;> exact ⟨rfl, rfl, rfl, rfl, rfl, rfl, rfl⟩

end Sys2Proof.Machine
end

