-- ==== Sys2Proof/Laws/Ops.lean ====
section
/-! SUPPORT. What the shared operations of the BTFE do: acceptance by its five outcomes (R131), a port call by whether it
is answered (R14), each step of an operation by the answer it gets (R132, R140, R150, R155). -/

namespace Sys2Proof.Machine

variable (q : Operation) (ss : Session)

/-! ### Acceptance -/

theorem accept_busy (h : ss.btfe.phase ≠ .idle) : accept q ss = refuse ss .busy := by simp [accept, h]

theorem accept_faulted (h : ss.btfe.phase = .idle) (hf : ss.btfe.fault = true) : accept q ss = refuse ss .faulted := by
  simp [accept, h, hf]

theorem accept_badEncoding (h : ss.btfe.phase = .idle) (hf : ss.btfe.fault = false) (hq : q.ok = false) :
    accept q ss = refuse ss .badEncoding := by simp [accept, h, hf, hq]

theorem accept_lengthOverflow (h : ss.btfe.phase = .idle) (hf : ss.btfe.fault = false) (hq : q.ok = true)
    (hn : 2 ^ 32 ≤ q.n) : accept q ss = refuse ss .lengthOverflow := by
  rw [accept, if_neg (by simp [h]), if_neg (by simp [hf]), if_neg (by simp [hq]), if_pos hn]

theorem accept_ok (h : ss.btfe.phase = .idle) (hf : ss.btfe.fault = false) (hq : q.ok = true) (hn : q.n < 2 ^ 32) :
    accept q ss = ss.withBtfe (latchOperation q ss.btfe) := by
  rw [accept, if_neg (by simp [h]), if_neg (by simp [hf]), if_neg (by simp [hq]), if_neg (by omega)]

/-- Acceptance either refuses, with the reason, or latches from IDLE with FAULT = 0 a request that fits. -/
theorem accept_cases :
    (∃ r, accept q ss = refuse ss r) ∨
      (accept q ss = ss.withBtfe (latchOperation q ss.btfe) ∧ ss.btfe.phase = .idle ∧ ss.btfe.fault = false ∧
        q.ok = true ∧ q.n < 2 ^ 32) := by
  by_cases h : ss.btfe.phase = .idle
  · cases hf : ss.btfe.fault
    · cases hq : q.ok
      · exact .inl ⟨_, accept_badEncoding q ss h hf hq⟩
      · by_cases hn : q.n < 2 ^ 32
        · exact .inr ⟨accept_ok q ss h hf hq hn, h, rfl, rfl, hn⟩
        · exact .inl ⟨_, accept_lengthOverflow q ss h hf hq (by omega)⟩
    · exact .inl ⟨_, accept_faulted q ss h hf⟩
  · exact .inl ⟨_, accept_busy q ss h⟩

/-! ### Port calls -/

theorem bulkOut_nil (bytes : List Byte) (h : ss.port.outAns = []) : bulkOut ss bytes = none := by
  simp [bulkOut, h]

theorem bulkOut_cons (bytes : List Byte) (a : OutAnswer) (rest : List OutAnswer) (h : ss.port.outAns = a :: rest) :
    bulkOut ss bytes =
      some (a, Session.log { ss with port := { ss.port with outAns := rest } }
        (.bulkOut ss.btfe.cfg.epOut bytes a)) := by
  simp [bulkOut, h]

theorem bulkIn_nil (n : Nat) (h : ss.port.inAns = []) : bulkIn ss n = none := by simp [bulkIn, h]

theorem bulkIn_cons (n : Nat) (a : InAnswer) (rest : List InAnswer) (h : ss.port.inAns = a :: rest) :
    bulkIn ss n =
      some (clipAnswer n a, Session.log { ss with port := { ss.port with inAns := rest } }
        (.bulkIn ss.btfe.cfg.epIn n (clipAnswer n a))) := by
  simp [bulkIn, h]

theorem clearHalt_nil (h : ss.port.clearAns = []) : clearHalt ss = none := by simp [clearHalt, h]

theorem clearHalt_cons (a : ClearAnswer) (rest : List ClearAnswer) (h : ss.port.clearAns = a :: rest) :
    clearHalt ss =
      some (a, Session.log { ss with port := { ss.port with clearAns := rest } }
        (.clearHalt ss.btfe.cfg.epIn a)) := by
  simp [clearHalt, h]

/-- A BulkOut that returns made one call, took one answer, and changed no register. -/
theorem bulkOut_some (bytes : List Byte) (a : OutAnswer) (t : Session) (h : bulkOut ss bytes = some (a, t)) :
    t.btfe = ss.btfe ∧ t.port.replies = ss.port.replies ∧ t.port.inAns = ss.port.inAns ∧
      t.port.clearAns = ss.port.clearAns ∧ ss.port.outAns = a :: t.port.outAns ∧
      t.port.trace = ss.port.trace ++ [.bulkOut ss.btfe.cfg.epOut bytes a] := by
  unfold bulkOut at h
  split at h
  · cases h
  · next ha => cases h; simp [ha]

/-- A BulkIn that returns made one call and changed no register; data are at most the bytes asked for (R14). -/
theorem bulkIn_some (n : Nat) (a : InAnswer) (t : Session) (h : bulkIn ss n = some (a, t)) :
    t.btfe = ss.btfe ∧ t.port.replies = ss.port.replies ∧ t.port.outAns = ss.port.outAns ∧
      t.port.clearAns = ss.port.clearAns ∧ t.port.trace = ss.port.trace ++ [.bulkIn ss.btfe.cfg.epIn n a] ∧
      (∀ b, a = .data b → b.length ≤ n) := by
  unfold bulkIn at h
  split at h
  · cases h
  · next x rest ha =>
    cases h
    refine ⟨rfl, rfl, rfl, rfl, rfl, fun b hb => ?_⟩
    cases x <;> simp only [clipAnswer, InAnswer.data.injEq, reduceCtorEq] at hb
    rw [← hb, List.length_take]
    exact Nat.min_le_left _ _

/-- A ClearHalt that returns made one call and changed no register. -/
theorem clearHalt_some (a : ClearAnswer) (t : Session) (h : clearHalt ss = some (a, t)) :
    t.btfe = ss.btfe ∧ t.port.replies = ss.port.replies ∧ t.port.outAns = ss.port.outAns ∧
      t.port.inAns = ss.port.inAns ∧ t.port.trace = ss.port.trace ++ [.clearHalt ss.btfe.cfg.epIn a] := by
  unfold clearHalt at h
  split at h
  · cases h
  · cases h; exact ⟨rfl, rfl, rfl, rfl, rfl⟩

/-! ### What each step can do to the registers and the trace: the steps' inversion lemmas -/

/-- The CBW_OUT step: waits, goes on to the data phase, or raises a TransportError; at most one call. -/
theorem sendCbw_cases (bytes : List Byte) :
    sendCbw bytes ss = ss ∨
      ∃ a, (sendCbw bytes ss).port.trace = ss.port.trace ++ [.bulkOut ss.btfe.cfg.epOut bytes a] ∧
        ((sendCbw bytes ss).btfe = { ss.btfe with phase := if ss.btfe.dir then .dataIn else .dataOut } ∨
          ∃ k, (sendCbw bytes ss).btfe = recordTransport k ss.btfe) := by
  unfold sendCbw
  split
  · exact .inl rfl
  · next t h =>
    obtain ⟨hb, -, -, -, -, ht⟩ := bulkOut_some ss bytes _ t h
    exact .inr ⟨_, ht, .inl (by rw [Session.toPhase_btfe, hb])⟩
  · next t h =>
    obtain ⟨hb, -, -, -, -, ht⟩ := bulkOut_some ss bytes _ t h
    exact .inr ⟨_, ht, .inr ⟨.stall, by rw [raiseTransport_btfe, hb]⟩⟩
  · next k t h =>
    obtain ⟨hb, -, -, -, -, ht⟩ := bulkOut_some ss bytes _ t h
    exact .inr ⟨_, ht, .inr ⟨k, by rw [raiseTransport_btfe, hb]⟩⟩

/-- The DATA_OUT step. -/
theorem dataOutStep_cases :
    dataOutStep ss = ss ∨
      ∃ a, (dataOutStep ss).port.trace =
          ss.port.trace ++ [.bulkOut ss.btfe.cfg.epOut (ss.btfe.dbuf.take ss.btfe.xlen.toNat) a] ∧
        ((dataOutStep ss).btfe = { ss.btfe with phase := .cswIn, rounds := 0 } ∨
          ∃ k, (dataOutStep ss).btfe = recordTransport k ss.btfe) := by
  unfold dataOutStep
  split
  · exact .inl rfl
  · next t h =>
    obtain ⟨hb, -, -, -, -, ht⟩ := bulkOut_some ss _ _ t h
    exact .inr ⟨_, ht, .inl (by rw [enterHandshake, Session.withBtfe_btfe, hb])⟩
  · next t h =>
    obtain ⟨hb, -, -, -, -, ht⟩ := bulkOut_some ss _ _ t h
    exact .inr ⟨_, ht, .inr ⟨.stall, by rw [raiseTransport_btfe, hb]⟩⟩
  · next k t h =>
    obtain ⟨hb, -, -, -, -, ht⟩ := bulkOut_some ss _ _ t h
    exact .inr ⟨_, ht, .inr ⟨k, by rw [raiseTransport_btfe, hb]⟩⟩

/-- The DATA_IN step. -/
theorem dataInStep_cases :
    dataInStep ss = ss ∨
      ∃ a, (dataInStep ss).port.trace = ss.port.trace ++ [.bulkIn ss.btfe.cfg.epIn ss.btfe.xlen.toNat a] ∧
        ((∃ b : List Byte, b.length = ss.btfe.xlen.toNat ∧
            (dataInStep ss).btfe = { ss.btfe with dbuf := b, phase := .decode }) ∨
          (dataInStep ss).btfe = recordProtocol ss.btfe ∨
          ∃ k, (dataInStep ss).btfe = recordTransport k ss.btfe) := by
  unfold dataInStep
  split
  · exact .inl rfl
  · next b t h =>
    obtain ⟨hb, -, -, -, ht, -⟩ := bulkIn_some ss _ _ t h
    refine .inr ⟨.data b, ?_⟩
    split
    · exact ⟨ht, .inr (.inl (by rw [raiseProtocol_btfe, hb]))⟩
    · next hl =>
      rw [hb] at hl
      exact ⟨ht, .inl ⟨b, by omega, by rw [Session.withBtfe_btfe, hb]⟩⟩
  · next t h =>
    obtain ⟨hb, -, -, -, ht, -⟩ := bulkIn_some ss _ _ t h
    exact .inr ⟨_, ht, .inr (.inr ⟨.stall, by rw [raiseTransport_btfe, hb]⟩)⟩
  · next k t h =>
    obtain ⟨hb, -, -, -, ht, -⟩ := bulkIn_some ss _ _ t h
    exact .inr ⟨_, ht, .inr (.inr ⟨k, by rw [raiseTransport_btfe, hb]⟩)⟩

/-- A status wrapper that has arrived is latched; then the operation is complete or a check that is on raises. -/
theorem takeCsw_cases (bytes : List Byte) :
    (takeCsw bytes ss).port.trace = ss.port.trace ∧
      ((takeCsw bytes ss).btfe =
          { latchFields (cswFields bytes) { ss.btfe with cswbuf := bytes } with phase := .idle } ∨
        (takeCsw bytes ss).btfe = recordProtocol (latchFields (cswFields bytes) { ss.btfe with cswbuf := bytes })) := by
  unfold takeCsw
  simp only
  split
  · exact ⟨rfl, .inr rfl⟩
  · exact ⟨rfl, .inl rfl⟩

/-- The CSW_IN step. -/
theorem cswInStep_cases :
    cswInStep ss = ss ∨
      ∃ a, (cswInStep ss).port.trace = ss.port.trace ++ [.bulkIn ss.btfe.cfg.epIn cswLen a] ∧
        ((∃ b : List Byte, b.length = cswLen ∧
            ((cswInStep ss).btfe = { latchFields (cswFields b) { ss.btfe with cswbuf := b } with phase := .idle } ∨
              (cswInStep ss).btfe = recordProtocol (latchFields (cswFields b) { ss.btfe with cswbuf := b }))) ∨
          (cswInStep ss).btfe = recordProtocol ss.btfe ∨
          (cswInStep ss).btfe = { ss.btfe with phase := .clearHalt } ∨
          ∃ k, (cswInStep ss).btfe = recordTransport k ss.btfe) := by
  unfold cswInStep
  split
  · exact .inl rfl
  · next b t h =>
    obtain ⟨hb, -, -, -, ht, -⟩ := bulkIn_some ss _ _ t h
    have hc := takeCsw_cases t b
    refine .inr ⟨.data b, ?_, ?_⟩
    · split
      · exact ht
      · rw [hc.1, ht]
    · split
      · exact .inr (.inl (by rw [raiseProtocol_btfe, hb]))
      · next hl => exact .inl ⟨b, by omega, by rw [← hb]; exact hc.2⟩
  · next t h =>
    obtain ⟨hb, -, -, -, ht, -⟩ := bulkIn_some ss _ _ t h
    refine .inr ⟨.stall, ?_, ?_⟩
    · split <;> exact ht
    · split
      · exact .inr (.inr (.inr ⟨.stall, by rw [raiseTransport_btfe, hb]⟩))
      · exact .inr (.inr (.inl (by rw [Session.toPhase_btfe, hb])))
  · next k t h =>
    obtain ⟨hb, -, -, -, ht, -⟩ := bulkIn_some ss _ _ t h
    exact .inr ⟨_, ht, .inr (.inr (.inr ⟨k, by rw [raiseTransport_btfe, hb]⟩))⟩

/-- The CLEAR_HALT step. -/
theorem clearHaltStep_cases :
    clearHaltStep ss = ss ∨
      ∃ a, (clearHaltStep ss).port.trace = ss.port.trace ++ [.clearHalt ss.btfe.cfg.epIn a] ∧
        ((clearHaltStep ss).btfe = { ss.btfe with phase := .cswIn, rounds := ss.btfe.rounds + 1 } ∨
          ∃ k, (clearHaltStep ss).btfe = recordTransport k ss.btfe) := by
  unfold clearHaltStep
  split
  · exact .inl rfl
  · next t h =>
    obtain ⟨hb, -, -, -, ht⟩ := clearHalt_some ss _ t h
    exact .inr ⟨_, ht, .inl (by rw [Session.withBtfe_btfe, hb])⟩
  · next k t h =>
    obtain ⟨hb, -, -, -, ht⟩ := clearHalt_some ss _ t h
    exact .inr ⟨_, ht, .inr ⟨k, by rw [raiseTransport_btfe, hb]⟩⟩

end Sys2Proof.Machine
end

