-- ==== Sys2Proof/Laws/PerInstr.lean ====
section
/-! SUPPORT. The family TableRow, about an instruction as syntax: what the encoder writes for it carries the fixed bits of
its row of spec/opcode_table.json (`match` and `mask` of a request head; the fixed bytes 12 to 14 of a command wrapper, R90;
13 bytes of a status wrapper, R96), and an internal action has no encoding (R107). -/

namespace Sys2Proof.Laws.TableRow

/-- The row of the opcode table an instruction's encoding fits. -/
def Statement : Instr → Prop
  | .cbw r => (∃ sig, r.wellFormed sig = true) →
      ∃ b, encode (.cbw r) = some (.wire b) ∧ b.length = 31 ∧ (b[12]? = some 0x80 ∨ b[12]? = some 0x00) ∧
        b[13]? = some 0x00 ∧ b[14]? = some 0x10
  | .csw r => ∃ b, encode (.csw r) = some (.wire b) ∧ b.length = 13
  | .readCommand enc cmd shape =>
      ∃ q, encode (.readCommand enc cmd shape) = some (.btfe q) ∧ q.head &&& 0xfb = 0x00
  | .writeCommand enc cmd shape value extra =>
      ∃ q, encode (.writeCommand enc cmd shape value extra) = some (.btfe q) ∧ q.head &&& 0xfb = 0x01
  | .writeCommandRaw cmd data => ∃ q, encode (.writeCommandRaw cmd data) = some (.btfe q) ∧ q.head &&& 0xff = 0x02
  | .btfeReserved e => ∃ q, encode (.btfeReserved e) = some (.btfe q) ∧ q.head &&& 0xfb = 0x03
  | .matrixInit => ∃ q, encode .matrixInit = some (.odpp q) ∧ q.head &&& 0xff = 0x00
  | .lookUp x y => ∃ q, encode (.lookUp x y) = some (.odpp q) ∧ q.head &&& 0xff = 0x01
  | .ditherAndPack w h => ∃ q, encode (.ditherAndPack w h) = some (.odpp q) ∧ q.head &&& 0xff = 0x02
  | .odppReserved => ∃ q, encode .odppReserved = some (.odpp q) ∧ q.head &&& 0xff = 0x03
  | .fetchTag => encode .fetchTag = none
  | .encodeValue shape enc value => encode (.encodeValue shape enc value) = none
  | .decodeValue shape enc buf => encode (.decodeValue shape enc buf) = none
  | .statusHandshake => encode .statusHandshake = none

/-- The BTFE heads under the masks of their rows (R105). -/
theorem btfeHead_bits : ∀ (opsel : BitVec 2) (e : Bool), btfeHead opsel e &&& 0xfb = (0 : BitVec 6) ++ opsel := by
  decide

theorem cbw (r : CbwRecord) : Statement (.cbw r) := by
  rintro ⟨sig, h⟩
  simp only [CbwRecord.wellFormed, cmdOk, cmdLen, Bool.and_eq_true, Bool.or_eq_true, beq_iff_eq] at h
  obtain ⟨⟨⟨⟨-, hf⟩, hl⟩, hc⟩, hn⟩ := h
  have h12 : (r.signature.bytes ++ (le32 r.tag ++ le32 r.transferLength)).length = 12 := by simp
  have hb : cbwBytes r =
      (r.signature.bytes ++ (le32 r.tag ++ le32 r.transferLength)) ++ (r.flags :: 0x00 :: 0x10 :: r.command) := by
    simp [cbwBytes, hl, hc]
  refine ⟨_, rfl, ?_, ?_, ?_, ?_⟩ <;> rw [hb]
  · rw [List.length_append, h12]; simp [hn]
  · rw [List.getElem?_append_right (by omega), h12]; simpa using hf
  · rw [List.getElem?_append_right (by omega), h12]; rfl
  · rw [List.getElem?_append_right (by omega), h12]; rfl

theorem csw (r : CswRecord) : Statement (.csw r) := ⟨_, rfl, by simp [cswBytes]⟩

theorem readCommand (enc : Enc) (cmd : List Byte) (shape : List Nat) : Statement (.readCommand enc cmd shape) :=
  ⟨_, rfl, btfeHead_bits _ _⟩

theorem writeCommand (enc : Enc) (cmd : List Byte) (shape value : List Nat) (extra : List Byte) :
    Statement (.writeCommand enc cmd shape value extra) := ⟨_, rfl, btfeHead_bits _ _⟩

theorem writeCommandRaw (cmd data : List Byte) : Statement (.writeCommandRaw cmd data) :=
  ⟨_, rfl, (by decide : btfeHead 2 false &&& 0xff = 0x02)⟩

theorem btfeReserved (e : Bool) : Statement (.btfeReserved e) := ⟨_, rfl, btfeHead_bits _ _⟩

theorem matrixInit : Statement .matrixInit :=
  ⟨_, rfl, (by decide : odppHead 0 &&& 0xff = 0x00)⟩

theorem lookUp (x y : Word) : Statement (.lookUp x y) :=
  ⟨_, rfl, (by decide : odppHead 1 &&& 0xff = 0x01)⟩

theorem ditherAndPack (w h : Word) : Statement (.ditherAndPack w h) :=
  ⟨_, rfl, (by decide : odppHead 2 &&& 0xff = 0x02)⟩

theorem odppReserved : Statement .odppReserved :=
  ⟨_, rfl, (by decide : odppHead 3 &&& 0xff = 0x03)⟩

theorem fetchTag : Statement .fetchTag := rfl

theorem encodeValue (shape : List Nat) (enc : Enc) (value : List Nat) : Statement (.encodeValue shape enc value) := rfl

theorem decodeValue (shape : List Nat) (enc : Enc) (buf : List Byte) : Statement (.decodeValue shape enc buf) := rfl

theorem statusHandshake : Statement .statusHandshake := rfl

end Sys2Proof.Laws.TableRow
end

