-- ==== Sys2Proof/Laws/Step.lean ====
section
/-! SUPPORT. What the machine's steps leave alone, and what a decoded request can be. -/

namespace Sys2Proof.Machine

/-- A step of a BTFE instance touches the current session and TAGCTR alone (R81, R170). -/
theorem btfeStep_frame (s t : State) (h : btfeStep s = .next t) :
    t.parked = s.parked ∧ t.odpp = s.odpp ∧ t.odppReplies = s.odppReplies ∧ t.inbox = s.inbox := by
  cases hp : s.cur.btfe.phase <;> simp only [btfeStep, hp, statusStep] at h
  case tag => simp only [exec, execFetchTag, andThen] at h; cases h; exact ⟨rfl, rfl, rfl, rfl⟩
  case cswIn =>
    split at h
    · simp only [exec, execCsw] at h; cases h; exact ⟨rfl, rfl, rfl, rfl⟩
    · simp only [exec, execStatusHandshake] at h; cases h; exact ⟨rfl, rfl, rfl, rfl⟩
  case decode => simp only [exec, execDecodeValue, andThen] at h; cases h; exact ⟨rfl, rfl, rfl, rfl⟩
  case cbwOut => simp only [exec, execCbw] at h; cases h; exact ⟨rfl, rfl, rfl, rfl⟩
  case clearHalt => simp only [exec, execStatusHandshake] at h; cases h; exact ⟨rfl, rfl, rfl, rfl⟩
  all_goals cases h; exact ⟨rfl, rfl, rfl, rfl⟩

/-- Whatever the BTFE port decodes, executing it is the acceptance of some operation (R131). -/
theorem exec_btfe_request (q : BtfeRequest) (i : Instr) (s : State) (h : decode (.btfe q) = .ok i) :
    ∃ o, exec i s = .next (s.withCur (accept o s.cur)) := by
  simp only [decode, decodeBtfe] at h
  split_ifs at h <;> cases h <;> exact ⟨_, rfl⟩

/-- Handing the turn on keeps the sessions, TAGCTR and the ODPP (R230). -/
theorem nextSession_frame (s : State) :
    (nextSession s).tagctr = s.tagctr ∧ (nextSession s).odpp = s.odpp ∧
      ((nextSession s).cur :: (nextSession s).parked).Perm (s.cur :: s.parked) := by
  unfold nextSession
  split
  · exact ⟨rfl, rfl, .refl _⟩
  · next p rest hp =>
    refine ⟨rfl, rfl, ?_⟩
    rw [hp, ← List.cons_append]
    exact List.perm_append_singleton _ _

/-- Acceptance never changes the configuration (R30). -/
theorem accept_cfg (q : Operation) (ss : Session) : (accept q ss).btfe.cfg = ss.btfe.cfg := by
  rcases accept_cases q ss with ⟨r, h⟩ | ⟨h, -⟩ <;> rw [h] <;> rfl

/-- A request is executed by accepting its operands: their length is the one asked for and they are well-encoded exactly
where the request is well-formed (R108, R131). -/
theorem exec_request (i : Instr) (n : Nat) (s : State) (sig : Quad) (h : Safety.requestsBytes i n) :
    ∃ q : Operation, exec i s = .next (s.withCur (accept q s.cur)) ∧ q.n = n ∧ q.ok = i.wellFormed sig := by
  rcases h with ⟨enc, cmd, shape, rfl, rfl⟩ | ⟨enc, cmd, shape, value, extra, rfl, rfl⟩ | ⟨cmd, data, rfl, rfl⟩
  · exact ⟨_, rfl, rfl, rfl⟩
  · exact ⟨_, rfl, rfl, rfl⟩
  · exact ⟨_, rfl, by simp [writeOperation, shapeSize], by simp [writeOperation, shapeOk, valueFits, Instr.wellFormed]⟩

/-- A step whose port call fails raises TransportError (R213, R218). -/
theorem btfeStep_failsWith (s : State) (k : ErrKind) (h : Safety.failsWith s.cur k) :
    ∃ t : Session, btfeStep s = .next (s.withCur t) ∧ t.btfe = recordTransport k s.cur.btfe ∧
      t.port.replies = s.cur.port.replies ++ [.transportError k] := by
  rcases h with ⟨hp | hp, rest, h⟩ | ⟨hp, rest, h⟩ | ⟨hp, rest, h⟩ | ⟨hp, rest, h⟩
  · simp only [btfeStep, hp, exec, execCbw]
    refine ⟨_, rfl, ?_⟩
    rcases h with h | ⟨rfl, h⟩ <;> rw [sendCbw, bulkOut_cons _ _ _ rest h] <;> exact ⟨rfl, rfl⟩
  · simp only [btfeStep, hp]
    refine ⟨_, rfl, ?_⟩
    rcases h with h | ⟨rfl, h⟩ <;> rw [dataOutStep, bulkOut_cons _ _ _ rest h] <;> exact ⟨rfl, rfl⟩
  · simp only [btfeStep, hp]
    refine ⟨_, rfl, ?_⟩
    rcases h with h | ⟨rfl, h⟩ <;> rw [dataInStep, bulkIn_cons _ _ _ rest h] <;> exact ⟨rfl, rfl⟩
  · rcases h with h | ⟨rfl, h, hr⟩
    · simp only [btfeStep, hp, statusStep, arrivingCsw, h, exec, execStatusHandshake, handshakeStep]
      refine ⟨_, rfl, ?_⟩
      rw [cswInStep, bulkIn_cons _ _ _ rest h]
      exact ⟨rfl, rfl⟩
    · simp only [btfeStep, hp, statusStep, arrivingCsw, h, exec, execStatusHandshake, handshakeStep]
      refine ⟨_, rfl, ?_⟩
      rw [cswInStep, bulkIn_cons _ _ _ rest h]
      simp [clipAnswer, retriesSpent, hr]
  · simp only [btfeStep, hp, exec, execStatusHandshake, handshakeStep]
    refine ⟨_, rfl, ?_⟩
    rw [clearHaltStep, clearHalt_cons _ _ rest h]
    exact ⟨rfl, rfl⟩

end Sys2Proof.Machine
end

