-- ==== Sys2Proof/Tests/Slice0.lean ====
section
/-! SUPPORT. The model's own tests: ill-formed terms, words written out from the spec, single steps with the results of
spec/95_test_vectors.md, and for every statement with hypotheses a concrete case that meets them. -/

namespace Sys2Proof.Tests

open Sys2Proof.Machine Sys2Proof.Safety

/-! ### Small states -/

/-- `cmdA` of 95_test_vectors.md. -/
def cmdA : List Byte := [0xA0, 0xA1, 0xA2, 0xA3, 0xA4, 0xA5, 0xA6, 0xA7, 0xA8, 0xA9, 0xAA, 0xAB, 0xAC, 0xAD, 0xAE, 0xAF]

/-- `cmd0` of 95_test_vectors.md. -/
def cmd0 : List Byte := [0x00, 0x01, 0x02, 0x03, 0x04, 0x05, 0x06, 0x07, 0x08, 0x09, 0x0A, 0x0B, 0x0C, 0x0D, 0x0E, 0x0F]

/-- CBW_SIGNATURE of the machine after reset. -/
def sigC : Quad := ⟨0x55, 0x53, 0x42, 0x43⟩

/-- C1 of 95_test_vectors.md as a record. -/
def c1 : CswRecord := ⟨⟨0x55, 0x53, 0x42, 0x53⟩, 1, 0, 0⟩

/-- C2 of 95_test_vectors.md as a record. -/
def c2 : CswRecord := ⟨⟨0x55, 0x53, 0x42, 0x53⟩, 0xDEADBEEF, 5, 1⟩

/-- The wrapper of an operation of 4 bytes with tag 1 and command cmdA. -/
def w4 (dir : Bool) : List Byte := encodeCbw ⟨0x55, 0x53, 0x42, 0x43⟩ 1 4 dir cmdA

/-- An engine in phase p of a 4-byte operation with tag 1, its environment's answers given. -/
def mid (p : Phase) (dir : Bool) (o : List OutAnswer) (i : List InAnswer) (c : List ClearAnswer) : State :=
  { State.reset with
    tagctr := 2
    cur :=
      { btfe :=
          { State.reset.cur.btfe with
            cmd := cmdA, xlen := 4, dir := dir, tag := 1, phase := p, cbwbuf := w4 dir
            dbuf := [0x00, 0x12, 0x34, 0x56], shape := [4], enc := .be, value := [0x00123456] }
        port := ⟨o, i, c, [], []⟩ } }

/-- A state with its outside events replaced. -/
def events (s : State) (e : List Input) : State := { s with inbox := e }

/-- The engine after a ProtocolError in DATA_IN. -/
def faulted : State :=
  State.reset.withCur (State.reset.cur.withBtfe
    { State.reset.cur.btfe with fault := true, errKind := 2, errPhase := 3 })

/-- Reset with one BTFE configuration field changed. -/
def configured (c : BtfeConfig) (s : State) : State := s.withCur (s.cur.withBtfe { s.cur.btfe with cfg := c })

/-- The ODPP with T2 in place and the first row of vector H1 in GRAY. -/
def ready : State :=
  State.reset.withOdpp
    { State.reset.odpp with
      matrixReady := true
      thresh := [(0, 0), (1, 128), (2, 192), (3, 64)]
      gray := [(0, 0), (1, 255), (2, 100), (3, 200), (4, 128), (5, 129), (6, 64), (7, 65)] }

/-- An ODPP with T2 as a ROM table. -/
def withRom : State :=
  State.reset.withOdpp { State.reset.odpp with cfg := { odppDefault with rom := true } }

/-- The ODPP at a pixel of H1. -/
def running (p : BitVec 64) : State :=
  ready.withOdpp { ready.odpp with width := 8, height := 1, pix := p, busy := true, packed := [(0, 0)] }

/-! ### WellFormed: one ill-formed term for each check -/

theorem test_wf_cbw_signature : (Instr.cbw ⟨⟨0x55, 0x53, 0x42, 0x53⟩, 1, 4, 0x80, 0, 16, cmdA⟩).wellFormed sigC = false := by decide
theorem test_wf_cbw_accepts : (Instr.cbw ⟨⟨0x55, 0x53, 0x42, 0x43⟩, 0, 4, 0x80, 0, 16, cmdA⟩).wellFormed sigC = true := by decide
theorem test_wf_cbw_flags : (Instr.cbw ⟨⟨0x55, 0x53, 0x42, 0x43⟩, 1, 4, 0x81, 0, 16, cmdA⟩).wellFormed sigC = false := by decide
theorem test_wf_cbw_lun : (Instr.cbw ⟨⟨0x55, 0x53, 0x42, 0x43⟩, 1, 4, 0x80, 1, 16, cmdA⟩).wellFormed sigC = false := by decide
theorem test_wf_cbw_length : (Instr.cbw ⟨⟨0x55, 0x53, 0x42, 0x43⟩, 1, 4, 0x80, 0, 15, cmdA⟩).wellFormed sigC = false := by decide
theorem test_wf_cbw_command : (Instr.cbw ⟨⟨0x55, 0x53, 0x42, 0x43⟩, 1, 4, 0x80, 0, 16, []⟩).wellFormed sigC = false := by decide
theorem test_wf_read_command : (Instr.readCommand .be (cmdA.take 15) [4]).wellFormed sigC = false := by decide
theorem test_wf_read_shape : (Instr.readCommand .be cmdA [4, 0]).wellFormed sigC = false := by decide
theorem test_wf_write_command : (Instr.writeCommand .be (cmdA.take 15) [4] [0] []).wellFormed sigC = false := by decide
theorem test_wf_write_shape : (Instr.writeCommand .be cmdA [0] [0] []).wellFormed sigC = false := by decide
theorem test_wf_write_value : (Instr.writeCommand .be cmdA [1] [256] []).wellFormed sigC = false := by decide
theorem test_wf_write_count : (Instr.writeCommand .be cmdA [1] [1, 2] []).wellFormed sigC = false := by decide
theorem test_wf_raw_command : (Instr.writeCommandRaw (cmdA ++ [0]) []).wellFormed sigC = false := by decide
theorem test_wf_encode_shape : (Instr.encodeValue [0] .le [0]).wellFormed sigC = false := by decide
theorem test_wf_encode_value : (Instr.encodeValue [2] .le [0x10000]).wellFormed sigC = false := by decide
theorem test_wf_decode_shape : (Instr.decodeValue [0, 4] .le []).wellFormed sigC = false := by decide
theorem test_wf_accepts : (Instr.writeCommand .le cmdA [1, 2] [255, 0xFFFF] [7]).wellFormed sigC = true := by decide

/-! ### Words written out from the spec's encodings -/

/-- B2: tag 0x12345678, length 322944, host to device. -/
theorem test_decode_cbw :
    decode (.wire ([0x55, 0x53, 0x42, 0x43, 0x78, 0x56, 0x34, 0x12, 0x80, 0xED, 0x04, 0x00, 0x00, 0x00, 0x10] ++ cmd0)) =
      .ok (.cbw ⟨⟨0x55, 0x53, 0x42, 0x43⟩, 0x12345678, 322944, 0, 0, 16, cmd0⟩) := by rfl

/-- C3. -/
theorem test_decode_csw :
    decode (.wire [0x00, 0x00, 0x00, 0x00, 0xFF, 0xFF, 0xFF, 0xFF, 0xFF, 0xFF, 0xFF, 0xFF, 0xFF]) =
      .ok (.csw ⟨⟨0, 0, 0, 0⟩, 0xFFFFFFFF, 0xFFFFFFFF, 0xFF⟩) := by rfl

/-- C4: 12 bytes are no record. -/
theorem test_decode_short :
    decode (.wire [0x55, 0x53, 0x42, 0x53, 0x01, 0x00, 0x00, 0x00, 0x00, 0x00, 0x00, 0x00]) = .error (.recordLength 12) := by
  rfl

/-- `00000e00`, e = 0. -/
theorem test_decode_read : decode (.btfe ⟨0b00000000, cmdA, [4], [], []⟩) = .ok (.readCommand .be cmdA [4]) := by rfl
/-- `00000e01`, e = 1. -/
theorem test_decode_write :
    decode (.btfe ⟨0b00000101, cmdA, [2], [7], [1]⟩) = .ok (.writeCommand .le cmdA [2] [7] [1]) := by rfl
/-- `00000010`. -/
theorem test_decode_raw : decode (.btfe ⟨0b00000010, cmdA, [], [], [9]⟩) = .ok (.writeCommandRaw cmdA [9]) := by rfl
/-- `00000e11`. -/
theorem test_decode_btfe_reserved : decode (.btfe ⟨0b00000111, cmdA, [], [], []⟩) = .ok (.btfeReserved true) := by rfl
/-- ENC = 1 with WRITE_COMMAND_RAW (F14), and bit 3 set. -/
theorem test_decode_btfe_illegal :
    decode (.btfe ⟨0b00000110, cmdA, [], [], []⟩) = .error .encWithRaw ∧
      decode (.btfe ⟨0b00001000, cmdA, [], [], []⟩) = .error .reservedHeadBits := ⟨rfl, rfl⟩
/-- `00000000` at the ODPP port. -/
theorem test_decode_matrix_init : decode (.odpp ⟨0b00000000, 0, 0, 0, 0⟩) = .ok .matrixInit := by rfl
/-- `00000001` at the ODPP port. -/
theorem test_decode_look_up : decode (.odpp ⟨0b00000001, 8, 9, 3, 2⟩) = .ok (.lookUp 3 2) := by rfl
/-- `00000010` at the ODPP port. -/
theorem test_decode_dither : decode (.odpp ⟨0b00000010, 8, 9, 3, 2⟩) = .ok (.ditherAndPack 8 9) := by rfl
/-- `00000011`, and bit 2 set, at the ODPP port. -/
theorem test_decode_odpp_reserved :
    decode (.odpp ⟨0b00000011, 0, 0, 0, 0⟩) = .ok .odppReserved ∧
      decode (.odpp ⟨0b00000100, 0, 0, 0, 0⟩) = .error .reservedHeadBits := ⟨rfl, rfl⟩

/-- Table words: head 4 is READ_COMMAND LE; the CBW row's `match` has command length 16 in byte 14. -/
theorem test_table_words :
    decodeTableWord 8 0x04 = some (.readCommand .le (List.replicate 16 0) []) ∧
      decodeTableWord 248 (0x10 * 256 ^ 16) = some (.cbw ⟨⟨0, 0, 0, 0⟩, 0, 0, 0, 0, 16, List.replicate 16 0⟩) ∧
      decodeTableWord 104 0x01 = some (.csw ⟨⟨0, 0, 0, 0⟩, 0, 0, 1⟩) ∧ decodeTableWord 16 0 = none := by decide

/-! ### Single steps with the results of 95_test_vectors.md -/

/-- A, fifth row: the counter wraps through 0. -/
theorem test_fetch_wraps :
    ∃ t, exec .fetchTag { State.reset with tagctr := 0xFFFFFFFF } = .next t ∧ t.cur.btfe.tag = 0xFFFFFFFF ∧ t.tagctr = 0 :=
  ⟨_, rfl, by decide⟩

/-- A, first row: the first tag is 1. -/
theorem test_first_tag : ∃ t, exec .fetchTag State.reset = .next t ∧ t.cur.btfe.tag = 1 ∧ t.tagctr = 2 :=
  ⟨_, rfl, by decide⟩

/-- F1, the TAG step: the wrapper W(1,4,1). -/
theorem test_tag_step :
    ∃ t, btfeStep { mid .tag true [] [] [] with tagctr := 1 } = .next t ∧
      t.cur.btfe.cbwbuf = [0x55, 0x53, 0x42, 0x43, 0x01, 0x00, 0x00, 0x00, 0x04, 0x00, 0x00, 0x00, 0x80, 0x00, 0x10] ++ cmdA :=
  ⟨_, rfl, by decide⟩

/-- F5: the wrapper's write fails. -/
theorem test_cbw_disconnect :
    ∃ t, exec (.cbw (cbwFields (w4 true))) (mid .cbwOut true [.err .disconnect] [] []) = .next t ∧
      t.cur.btfe.errKind = 1 ∧ t.cur.btfe.errSub = 2 ∧ t.cur.btfe.errPhase = 2 ∧ t.cur.btfe.phase = .idle ∧
      t.cur.btfe.fault = false := ⟨_, rfl, by decide⟩

/-- F1: the wrapper goes out, and DIR = 1 leads to DATA_IN. -/
theorem test_cbw_ok :
    ∃ t, exec (.cbw (cbwFields (w4 true))) (mid .cbwOut true [.ok] [] []) = .next t ∧ t.cur.btfe.phase = .dataIn :=
  ⟨_, rfl, by decide⟩

/-- F3: three of four bytes. -/
theorem test_short_read :
    ∃ t, btfeStep (mid .dataIn true [] [.data [0x00, 0x12, 0x34]] []) = .next t ∧ t.cur.btfe.fault = true ∧
      t.cur.btfe.errKind = 2 ∧ t.cur.btfe.errPhase = 3 ∧ t.cur.port.replies = [.protocolError] := ⟨_, rfl, by decide⟩

/-- F8: the payload's write times out. -/
theorem test_write_timeout :
    ∃ t, btfeStep (mid .dataOut false [.err .timeout] [] []) = .next t ∧ t.cur.btfe.errKind = 1 ∧
      t.cur.btfe.errSub = 1 ∧ t.cur.btfe.errPhase = 4 := ⟨_, rfl, by decide⟩

/-- E10: a foreign wrapper completes the operation. -/
theorem test_csw_foreign :
    ∃ t, exec (.csw c2) (mid .cswIn false [] [] []) = .next t ∧ t.cur.btfe.cswTag = 0xDEADBEEF ∧
      t.cur.btfe.cswResidue = 5 ∧ t.cur.btfe.cswStatus = 1 ∧ t.cur.btfe.errKind = 0 ∧ t.cur.btfe.cswValid = true ∧
      t.cur.port.replies = [.okUnit] := ⟨_, rfl, by decide⟩

/-- E1. -/
theorem test_handshake_ok :
    ∃ t, exec .statusHandshake
        (mid .cswIn true [] [.data [0x55, 0x53, 0x42, 0x53, 0x01, 0x00, 0x00, 0x00, 0x00, 0x00, 0x00, 0x00, 0x00]] []) =
        .next t ∧
      t.cur.btfe.cswValid = true ∧ t.cur.btfe.cswTag = 1 ∧ t.cur.btfe.cswStatus = 0 ∧
      t.cur.port.replies = [.okValue [0x00123456]] := ⟨_, rfl, by decide⟩

/-- E5, the clear. -/
theorem test_clear_fails :
    ∃ t, exec .statusHandshake (mid .clearHalt true [] [] [.err .disconnect]) = .next t ∧ t.cur.btfe.errSub = 2 ∧
      t.cur.btfe.errPhase = 7 := ⟨_, rfl, by decide⟩

/-- F1: acceptance of the read. -/
theorem test_read_accepted :
    ∃ t, exec (.readCommand .be cmdA [4]) State.reset = .next t ∧ t.cur.btfe.xlen = 4 ∧ t.cur.btfe.dir = true ∧
      t.cur.btfe.phase = .tag ∧ t.tagctr = 1 := ⟨_, rfl, by decide⟩

/-- F14: a 15-byte command. -/
theorem test_read_bad_command :
    ∃ t, exec (.readCommand .be (cmdA.take 15) [4]) State.reset = .next t ∧
      t.cur.port.replies = [.refused .badEncoding] ∧ t.cur.btfe.phase = .idle := ⟨_, rfl, by decide⟩

/-- F7: the payload is value then extra. -/
theorem test_write_payload :
    ∃ t, exec (.writeCommand .be cmdA [4, 2, 2] [0x00100000, 8, 2] [0x7E, 0x5A]) State.reset = .next t ∧
      t.cur.btfe.dbuf = [0x00, 0x10, 0x00, 0x00, 0x00, 0x08, 0x00, 0x02, 0x7E, 0x5A] ∧ t.cur.btfe.xlen = 10 ∧
      t.cur.btfe.dir = false := ⟨_, rfl, by decide⟩

/-- F12. -/
theorem test_raw_faulted :
    ∃ t, exec (.writeCommandRaw cmdA [0]) faulted = .next t ∧ t.cur.port.replies = [.refused .faulted] ∧
      t.cur.btfe.errKind = 2 := ⟨_, rfl, by decide⟩

/-- F14: OPSEL = 3. -/
theorem test_btfe_reserved :
    ∃ t, exec (.btfeReserved false) State.reset = .next t ∧ t.cur.port.replies = [.refused .badEncoding] :=
  ⟨_, rfl, by decide⟩

/-- D: `[4, 2]` LE. -/
theorem test_encode_le :
    ∃ t, exec (.encodeValue [4, 2] .le [0x00123456, 0x062C]) State.reset = .next t ∧
      t.cur.btfe.dbuf = [0x56, 0x34, 0x12, 0x00, 0x2C, 0x06] := ⟨_, rfl, by decide⟩

/-- D: decoding LE. -/
theorem test_decode_le :
    ∃ t, exec (.decodeValue [4] .le [0x00, 0x12, 0x34, 0x56]) State.reset = .next t ∧ t.cur.btfe.value = [0x56341200] :=
  ⟨_, rfl, by decide⟩

/-- D: three bytes for a 4-byte shape. -/
theorem test_decode_fails :
    ∃ t, exec (.decodeValue [4] .be [0x00, 0x12, 0x34]) (mid .decode true [] [] []) = .next t ∧ t.cur.btfe.fault = true ∧
      t.cur.btfe.errPhase = 5 := ⟨_, rfl, by decide⟩

/-- R171's example. -/
theorem test_matrix_init :
    ∃ t, exec .matrixInit State.reset = .next t ∧ Memory.read t.odpp.thresh 1 = some 128 ∧
      Memory.read t.odpp.thresh 2 = some 192 ∧ t.odpp.matrixReady = true := ⟨_, rfl, by decide⟩

/-- R172: the tables for sides 1, 2 and 4. -/
theorem test_bayer :
    bayerTable 0 = [0] ∧ bayerTable 1 = [0, 128, 192, 64] ∧
      bayerTable 2 = [0, 128, 32, 160, 192, 64, 224, 96, 48, 176, 16, 144, 240, 112, 208, 80] := by decide

/-- G: row from y, column from x, at the largest coordinates. -/
theorem test_look_up_wraps :
    ∃ t, exec (.lookUp 0xFFFFFFFF 0xFFFFFFFE) ready = .next t ∧ t.odppReplies = [.threshold 128] := ⟨_, rfl, by decide⟩

/-- G: `look_up(0, 3) = 192`. -/
theorem test_look_up_row : ∃ t, exec (.lookUp 0 3) ready = .next t ∧ t.odppReplies = [.threshold 192] :=
  ⟨_, rfl, by decide⟩

/-- H, refusals: 3 by 3. -/
theorem test_dither_bad :
    ∃ t, exec (.ditherAndPack 3 3) ready = .next t ∧ t.odppReplies = [.refused .badDimensions] ∧ t.odpp.busy = false :=
  ⟨_, rfl, by decide⟩

/-- H, nearest accepted: 4 by 2. -/
theorem test_dither_accepted :
    ∃ t, exec (.ditherAndPack 4 2) ready = .next t ∧ t.odpp.busy = true ∧ t.odpp.width = 4 ∧ t.odpp.height = 2 :=
  ⟨_, rfl, by decide⟩

/-- H1, pixel 1: 255 exceeds 128, bit 1. -/
theorem test_pixel_white :
    ∃ t, odppStep (running 1) = .next t ∧ Memory.read t.odpp.packed 0 = some 0b00000010 ∧ t.odpp.pix = 2 :=
  ⟨_, rfl, by decide⟩

/-- H1, pixel 0: 0 does not exceed 0. -/
theorem test_pixel_strict : ∃ t, odppStep (running 0) = .next t ∧ Memory.read t.odpp.packed 0 = some 0 := ⟨_, rfl, by decide⟩

/-- R108 at the ODPP port. -/
theorem test_odpp_reserved : ∃ t, exec .odppReserved ready = .next t ∧ t.odppReplies = [.refused .badEncoding] :=
  ⟨_, rfl, by decide⟩

/-- P5: session reset clears FAULT. -/
theorem test_session_reset :
    ∃ t, step (events faulted [.sessionReset]) = .next t ∧ t.cur.btfe.fault = false ∧ t.cur.btfe.errKind = 0 :=
  ⟨_, rfl, by decide⟩

/-! ### Witnesses: for every statement with hypotheses, a concrete case that meets all of them, for each clause -/

/-- An engine in the middle of a read meets the invariant. -/
theorem inv_mid_read : StateInv (mid .cbwOut true [.ok] [] []) := by
  refine ⟨?_, by simp [mid, State.reset], ?_⟩
  · constructor <;> decide
  · constructor <;> decide

/-- An engine in DECODE meets the invariant. -/
theorem inv_decode : BtfeInv (mid .decode true [] [] []).cur.btfe := by constructor <;> decide

/-- The ODPP at the last pixel of a frame meets the invariant. -/
theorem inv_running : OdppInv (running 7).odpp := by constructor <;> decide

/-- The ODPP with its table and a frame in GRAY meets the invariant. -/
theorem inv_ready : OdppInv ready.odpp := by constructor <;> decide

theorem witness_StepKeepsTheInvariant :
    StateInv (mid .cbwOut true [.ok] [] []) ∧ ∃ t, step (mid .cbwOut true [.ok] [] []) = .next t :=
  ⟨inv_mid_read, _, rfl⟩

theorem witness_MemoriesAreWrittenOnlyByTheirOwners :
    (∃ t, step (events ready [.loadGray [1]]) = .next t ∧ t.odpp.gray ≠ ready.odpp.gray) ∧
      (∃ t, step (events State.reset [.odppRequest ⟨0, 0, 0, 0, 0⟩]) = .next t ∧
        t.odpp.thresh ≠ State.reset.odpp.thresh) ∧
      ∃ t, step (events (running 1) [.odppTurn]) = .next t ∧ t.odpp.packed ≠ (running 1).odpp.packed :=
  ⟨⟨_, rfl, by decide⟩, ⟨_, rfl, by decide⟩, _, rfl, by decide⟩

theorem witness_DecodeOfEncodeIsTheInstruction :
    ∃ e, (Instr.cbw ⟨⟨1, 2, 3, 4⟩, 0xFFFFFFFF, 0xFFFFFFFF, 0x80, 0, 16, cmdA⟩).wellFormed ⟨1, 2, 3, 4⟩ = true ∧
      encode (.cbw ⟨⟨1, 2, 3, 4⟩, 0xFFFFFFFF, 0xFFFFFFFF, 0x80, 0, 16, cmdA⟩) = some e := ⟨_, by decide, rfl⟩

theorem witness_EncodeOfDecodeKeepsTheWord :
    (∃ i, decodeWire (w4 true) = .ok i) ∧ (∃ i, decodeBtfe ⟨7, cmdA, [], [], []⟩ = .ok i) ∧
      ∃ i, decodeOdpp ⟨3, 0, 0, 0, 0⟩ = .ok i := ⟨⟨_, rfl⟩, ⟨_, rfl⟩, _, rfl⟩

/-- The heads at the borders of the ranges. -/
theorem witness_IllegalHeadsAreRejectedByName :
    decodeBtfe ⟨7, [], [], [], []⟩ = .ok (.btfeReserved true) ∧ decodeBtfe ⟨3, [], [], [], []⟩ = .ok (.btfeReserved false) ∧
      decodeBtfe ⟨6, [], [], [], []⟩ = .error .encWithRaw ∧ decodeBtfe ⟨8, [], [], [], []⟩ = .error .reservedHeadBits ∧
      decodeBtfe ⟨5, [], [], [], []⟩ = .ok (.writeCommand .le [] [] [] []) ∧
      decodeOdpp ⟨4, 0, 0, 0, 0⟩ = .error .reservedHeadBits ∧ decodeOdpp ⟨2, 0, 0, 0, 0⟩ = .ok (.ditherAndPack 0 0) :=
  ⟨rfl, rfl, rfl, rfl, rfl, rfl, rfl⟩

theorem witness_CommandWrapperBytes : cmdA.length = 16 := by decide

theorem witness_CommandWrapperRoundTrip :
    cmdA.length = 16 ∧ (w4 false).length = 31 ∧ (cbwFields (w4 false)).signature ≠ c1.signature := by decide

theorem witness_StatusWrapperRoundTrip : (cswBytes c2).length = 13 := by decide

theorem witness_EncodedValueBytes : 3 < 4 ∧ valueFits [4, 1] [0xFFFFFFFF, 255] = true := by decide

theorem witness_TypedValueRoundTrip :
    valueFits [2, 1] [0xFFFF, 0] = true ∧ ([0x01, 0x02, 0x03] : List Byte).length = shapeSize [2, 1] := by decide

theorem witness_StepRunsTheDecodedInstruction :
    decode (.btfe ⟨0, cmdA, [4], [], []⟩) = .ok (.readCommand .be cmdA [4]) ∧
      decode (.btfe ⟨8, cmdA, [4], [], []⟩) = .error .reservedHeadBits ∧
      decode (.odpp ⟨1, 0, 0, 3, 0⟩) = .ok (.lookUp 3 0) ∧ decode (.odpp ⟨4, 0, 0, 3, 0⟩) = .error .reservedHeadBits ∧
      (events ready [.btfeRequest ⟨0, cmdA, [4], [], []⟩]).inbox = .btfeRequest ⟨0, cmdA, [4], [], []⟩ :: [] ∧
      (events ready [.odppRequest ⟨1, 0, 0, 3, 0⟩]).inbox = .odppRequest ⟨1, 0, 0, 3, 0⟩ :: [] ∧
      (events ready [.btfeTurn]).inbox = .btfeTurn :: [] ∧ (events ready [.odppTurn]).inbox = .odppTurn :: [] ∧
      ready.inbox = [] ∧
      (mid .cbwOut true [] [] []).cur.btfe.phase = .cbwOut ∧
      decode (.wire (mid .cbwOut true [] [] []).cur.btfe.cbwbuf) = .ok (.cbw (cbwFields (w4 true))) ∧
      (mid .cbwOut true [] [] []).cur.btfe.cbwbuf.length = 31 ∧
      (mid .cswIn true [] [.data (cswBytes c2)] []).cur.port.inAns = .data (cswBytes c2) :: [] ∧
      (mid .cswIn true [] [] []).cur.btfe.phase = .cswIn ∧ 13 ≤ (cswBytes c2).length ∧
      decode (.wire ((cswBytes c2).take 13)) = .ok (.csw c2) ∧
      (∀ b rest, (mid .cswIn true [] [.data [1]] []).cur.port.inAns = .data b :: rest → b.length < 13) ∧
      (∀ b rest, (mid .cswIn true [] [.stall] []).cur.port.inAns = .data b :: rest → b.length < 13) ∧
      (mid .idle true [] [] []).cur.btfe.phase = .idle ∧ ready.odpp.busy = false ∧
      (mid .clearHalt true [] [] []).cur.btfe.phase = .clearHalt ∧ (mid .tag true [] [] []).cur.btfe.phase = .tag ∧
      (mid .decode true [] [] []).cur.btfe.phase = .decode :=
  ⟨rfl, rfl, rfl, rfl, rfl, rfl, rfl, rfl, rfl, rfl, rfl, rfl, rfl, rfl, by decide, rfl,
    fun _ _ h => (by cases h; decide), fun _ _ h => (by cases h), rfl, rfl, rfl, rfl, rfl⟩

theorem witness_PlacedWordRunsNext :
    (∃ i, decodeTableWord 8 7 = some i) ∧ (∃ i, decodeTableWord 248 0 = some i) ∧ ∃ i, decodeTableWord 104 0 = some i :=
  ⟨⟨_, rfl⟩, ⟨_, rfl⟩, _, rfl⟩

theorem witness_ArrivingWrapperEqualsHandshake :
    (mid .cswIn true [] [.data (cswBytes c2)] []).cur.btfe.phase = .cswIn ∧
      (mid .cswIn true [] [.data (cswBytes c2)] []).cur.port.inAns = .data (cswBytes c2) :: [] ∧
      (cswBytes c2).length = 13 := by decide

/-- From reset; the largest length that fits, and the length that does not. -/
theorem witness_RequestIsAccepted :
    State.reset.cur.btfe.phase = .idle ∧ State.reset.cur.btfe.fault = false ∧ cmdA.length = 16 ∧
      shapeOk [2 ^ 32 - 1] = true ∧ shapeSize [2 ^ 32 - 1] < 2 ^ 32 ∧ shapeOk [4] = true ∧ valueFits [4] [0xFFFFFFFF] = true ∧
      shapeSize [4] + ([7] : List Byte).length < 2 ^ 32 ∧ ([] : List Byte).length < 2 ^ 32 := by decide

theorem witness_RequestIsRefused :
    requestsBytes (.writeCommand .be cmdA [1] [256] []) 1 ∧ requestsBytes (.readCommand .be cmdA [2 ^ 32]) (2 ^ 32) ∧
    (mid .clearHalt true [] [] []).cur.btfe.phase ≠ .idle ∧ faulted.cur.btfe.phase = .idle ∧
      faulted.cur.btfe.fault = true ∧ State.reset.cur.btfe.phase = .idle ∧ State.reset.cur.btfe.fault = false ∧
      (Instr.writeCommand .be cmdA [1] [256] []).wellFormed sigC = false ∧
      (Instr.readCommand .be cmdA [2 ^ 32]).wellFormed sigC = true ∧ 2 ^ 32 ≤ shapeSize [2 ^ 32] :=
  ⟨.inr (.inl ⟨_, _, _, _, _, rfl, rfl⟩), .inl ⟨_, _, _, rfl, rfl⟩, by decide⟩

theorem witness_ReservedBtfeCodeIsRefused :
    State.reset.cur.btfe.phase = .idle ∧ State.reset.cur.btfe.fault = false ∧ faulted.cur.btfe.phase = .idle ∧
      faulted.cur.btfe.fault = true ∧ (mid .tag true [] [] []).cur.btfe.phase ≠ .idle := by decide

theorem witness_RawWriteIsWriteOfEmptyShape :
    (⟨0b00000010, cmdA, [], [], [1]⟩ : BtfeRequest).head = 0b00000010 ∧ State.reset.cur.btfe.phase = .idle ∧
      State.reset.cur.btfe.fault = false ∧ cmdA.length = 16 ∧ ([] : List Byte).length < 2 ^ 32 := by decide

theorem witness_OrderOfEmptyShapeDoesNotMatter :
    ∃ t, exec (.writeCommandRaw cmdA [1]) State.reset = .next t ∧ t.cur.btfe.phase = .tag ∧
      State.reset.cur.btfe.phase = .idle := ⟨_, rfl, by decide⟩

theorem witness_TagsDoNotRepeat : 1 < [0, 1].length ∧ [0, 1].length ≤ 2 ^ 32 := by decide

theorem witness_TagCounterMovesOnlyByFetchTag :
    (∃ t, step (mid .tag true [] [] []) = .next t ∧ t.tagctr = 3) ∧
      ∃ t, step (events (mid .idle true [] [] []) [.globalReset]) = .next t ∧ t.tagctr = 1 :=
  ⟨⟨_, rfl, by decide⟩, _, rfl, by decide⟩

theorem witness_TagStepBuildsTheWrapper : (mid .tag true [] [] []).cur.btfe.phase = .tag := by decide

theorem witness_CommandWrapperIsSent :
    (mid .cbwOut true [.ok] [] []).cur.btfe.phase = .cbwOut ∧ (mid .cbwOut true [.ok] [] []).cur.port.outAns = .ok :: [] ∧
      (mid .cbwOut true [.stall] [] []).cur.port.outAns = .stall :: [] ∧
      (mid .cbwOut true [.err .other] [] []).cur.port.outAns = .err .other :: [] := by decide

/-- Exactly XLEN bytes, and one fewer. -/
theorem witness_DataInStepReadsThePayload :
    (mid .dataIn true [] [.data [1, 2, 3, 4]] []).cur.btfe.phase = .dataIn ∧
      (mid .dataIn true [] [.data [1, 2, 3, 4]] []).cur.port.inAns = .data [1, 2, 3, 4] :: [] ∧
      (mid .dataIn true [] [] []).cur.btfe.xlen.toNat ≤ ([1, 2, 3, 4] : List Byte).length ∧
      ¬ (mid .dataIn true [] [] []).cur.btfe.xlen.toNat ≤ ([1, 2, 3] : List Byte).length ∧
      (mid .dataIn true [] [.stall] []).cur.port.inAns = .stall :: [] ∧
      (mid .dataIn true [] [.err .timeout] []).cur.port.inAns = .err .timeout :: [] := by decide

theorem witness_DataOutStepSendsThePayload :
    (mid .dataOut false [.ok] [] []).cur.btfe.phase = .dataOut ∧
      (mid .dataOut false [.ok] [] []).cur.port.outAns = .ok :: [] ∧
      (mid .dataOut false [.stall] [] []).cur.port.outAns = .stall :: [] ∧
      (mid .dataOut false [.err .timeout] [] []).cur.port.outAns = .err .timeout :: [] ∧
      (mid .dataOut false [] [] []).cur.btfe.dbuf.length = (mid .dataOut false [] [] []).cur.btfe.xlen.toNat := by decide

theorem witness_DecodeValueOrProtocolError :
    ([] : List Byte).length = shapeSize [] ∧ (mid .decode true [] [] []).cur.btfe.phase = .decode ∧
      ([1, 2, 3] : List Byte).length ≠ shapeSize [4] := by decide

theorem witness_DecodeStepDoesNotFail :
    BtfeInv (mid .decode true [] [] []).cur.btfe ∧ (mid .decode true [] [] []).cur.btfe.phase = .decode :=
  ⟨inv_decode, rfl⟩

theorem witness_EncodeValueFillsTheBuffer :
    shapeOk [1] = true ∧ valueFits [1] [255] = true ∧ valueFits [1] [256] = false ∧ shapeOk [0] = false := by decide

theorem witness_StatusWrapperIsLatched : checksOff State.reset.cur.btfe.cfg := ⟨rfl, rfl, rfl⟩

/-- With the tag check on, C2 fails against tag 1; with all checks off it passes. -/
theorem witness_OptionalChecksRaiseAfterLatching :
    let s := configured { State.reset.cur.btfe.cfg with checkCswTag := true } (mid .cswIn true [] [] [])
    s.cur.btfe.phase = .cswIn ∧ s.cur.btfe.cfg.checkCswTag = true ∧ c2.tag ≠ s.cur.btfe.tag ∧
      (mid .cswIn true [] [] []).cur.btfe.cfg.checkCswTag = false ∧
      (mid .cswIn true [] [] []).cur.btfe.cfg.checkCswSignature = false ∧
      (mid .cswIn true [] [] []).cur.btfe.cfg.checkCswStatus = false := by decide

theorem witness_HandshakeAnswers :
    (mid .cswIn true [] [.stall] []).cur.btfe.phase = .cswIn ∧
      (mid .cswIn true [] [.stall] []).cur.btfe.cfg.retryLimit = none ∧
      (mid .cswIn true [] [.stall] []).cur.port.inAns = .stall :: [] ∧
      (mid .clearHalt true [] [] [.ok]).cur.btfe.phase = .clearHalt ∧
      (mid .clearHalt true [] [] [.ok]).cur.port.clearAns = .ok :: [] ∧
      (mid .cswIn true [] [.err .timeout] []).cur.port.inAns = .err .timeout :: [] ∧
      (mid .clearHalt true [] [] [.err .stall]).cur.port.clearAns = .err .stall :: [] ∧
      (mid .cswIn true [] [.data (cswBytes c1)] []).cur.port.inAns = .data (cswBytes c1) :: [] ∧
      checksOff (mid .cswIn true [] [] []).cur.btfe.cfg ∧ (cswBytes c1).length = 13 ∧
      (mid .cswIn true [] [.data ((cswBytes c1).take 12)] []).cur.port.inAns = .data ((cswBytes c1).take 12) :: [] ∧
      ((cswBytes c1).take 12).length < 13 :=
  ⟨rfl, rfl, rfl, rfl, rfl, rfl, rfl, rfl, ⟨rfl, rfl, rfl⟩, rfl, rfl, by decide⟩

theorem witness_UnansweredCallWaits :
    (mid .cbwOut true [] [] []).cur.port.outAns = [] ∧ (mid .dataOut true [] [] []).cur.btfe.phase = .dataOut ∧
      (mid .dataIn true [] [] []).cur.btfe.phase = .dataIn ∧ (mid .dataIn true [] [] []).cur.port.inAns = [] ∧
      (mid .cswIn true [] [] []).cur.btfe.phase = .cswIn ∧ (mid .clearHalt true [] [] []).cur.btfe.phase = .clearHalt ∧
      (mid .clearHalt true [] [] []).cur.port.clearAns = [] := by decide

theorem witness_HandshakeRecoversFromStalls :
    let s := mid .cswIn false [] [.stall, .data (cswBytes c1)] [.ok]
    s.cur.btfe.phase = .cswIn ∧ s.cur.btfe.cfg.retryLimit = none ∧ checksOff s.cur.btfe.cfg ∧
      s.cur.port.inAns = List.replicate 1 .stall ++ .data (cswBytes c1) :: [] ∧
      s.cur.port.clearAns = List.replicate 1 .ok ++ [] := ⟨rfl, rfl, ⟨rfl, rfl, rfl⟩, rfl, rfl⟩

theorem witness_HandshakeHasNoRetryLimit :
    let s := mid .cswIn false [] [.stall, .stall] [.ok, .ok]
    s.cur.btfe.phase = .cswIn ∧ s.cur.btfe.cfg.retryLimit = none ∧ s.cur.port.inAns = List.replicate 2 .stall ∧
      s.cur.port.clearAns = List.replicate 2 .ok := ⟨rfl, rfl, rfl, rfl⟩

/-- RETRY_LIMIT = 2 on the answers of E3, and RETRY_LIMIT = 0. -/
theorem witness_RetryLimitEndsTheHandshake :
    let s := configured { State.reset.cur.btfe.cfg with retryLimit := some 2 }
      (mid .cswIn false [] [.stall, .stall, .stall] [.ok, .ok])
    s.cur.btfe.phase = .cswIn ∧ s.cur.btfe.cfg.retryLimit = some 2 ∧ s.cur.btfe.rounds = 0 ∧
      s.cur.port.inAns = List.replicate (2 + 1) .stall ++ [] ∧ s.cur.port.clearAns = List.replicate 2 .ok ++ [] :=
  ⟨rfl, rfl, rfl, rfl, rfl⟩

/-- P1, and F10 with the empty shape. -/
theorem witness_ReadCommandRunsToItsValue :
    let s := mid .idle true [.ok] [.data [0x00, 0x12, 0x34, 0x56], .data (cswBytes c1)] []
    s.cur.btfe.phase = .idle ∧ s.cur.btfe.fault = false ∧ checksOff s.cur.btfe.cfg ∧ cmdA.length = 16 ∧
      shapeOk [4] = true ∧ shapeSize [4] < 2 ^ 32 ∧ ([0x00, 0x12, 0x34, 0x56] : List Byte).length = shapeSize [4] ∧
      s.cur.port.outAns = .ok :: [] ∧
      s.cur.port.inAns = .data [0x00, 0x12, 0x34, 0x56] :: .data (cswBytes c1) :: [] ∧ shapeOk [] = true ∧
      ([] : List Byte).length = shapeSize [] :=
  ⟨rfl, rfl, ⟨rfl, rfl, rfl⟩, rfl, rfl, by decide, rfl, rfl, rfl, rfl, rfl⟩

/-- F7. -/
theorem witness_WriteCommandRunsToItsEnd :
    let s := mid .idle true [.ok, .ok] [.data (cswBytes c1)] []
    s.cur.btfe.phase = .idle ∧ s.cur.btfe.fault = false ∧ checksOff s.cur.btfe.cfg ∧ cmdA.length = 16 ∧
      shapeOk [4, 2, 2] = true ∧ valueFits [4, 2, 2] [0x00100000, 8, 2] = true ∧
      shapeSize [4, 2, 2] + ([0x7E, 0x5A] : List Byte).length < 2 ^ 32 ∧ s.cur.port.outAns = .ok :: .ok :: [] ∧
      s.cur.port.inAns = .data (cswBytes c1) :: [] :=
  ⟨rfl, rfl, ⟨rfl, rfl, rfl⟩, rfl, rfl, rfl, by decide, rfl, rfl⟩

/-- F9: the empty payload. -/
theorem witness_WriteCommandRawRunsToItsEnd :
    let s := mid .idle true [.ok, .ok] [.data (cswBytes c1)] []
    s.cur.btfe.phase = .idle ∧ s.cur.btfe.fault = false ∧ checksOff s.cur.btfe.cfg ∧ cmdA.length = 16 ∧
      ([] : List Byte).length < 2 ^ 32 ∧ s.cur.port.outAns = .ok :: .ok :: [] ∧
      s.cur.port.inAns = .data (cswBytes c1) :: [] := ⟨rfl, rfl, ⟨rfl, rfl, rfl⟩, rfl, by decide, rfl, rfl⟩

theorem witness_PhaseMovesOnlyAlongTheTable :
    ∃ t, btfeStep (mid .cswIn true [] [.stall] []) = .next t ∧ t.cur.btfe.phase = .clearHalt := ⟨_, rfl, by decide⟩

theorem witness_StepMakesAtMostOneCall :
    BtfeInv (mid .cbwOut true [.ok] [] []).cur.btfe ∧
      ∃ t, btfeStep (mid .cbwOut true [.ok] [] []) = .next t ∧ t.cur.port.trace.length = 1 :=
  ⟨inv_mid_read.cur, _, rfl, rfl⟩

theorem witness_FaultStaysUntilReset :
    (∃ t, step faulted = .next t) ∧ faulted.cur.btfe.fault = true ∧ faulted.inbox = [] ∧ changesSession .btfeTurn = false ∧
      (events faulted [.btfeRequest ⟨0, cmdA, [4], [], []⟩]).inbox = .btfeRequest ⟨0, cmdA, [4], [], []⟩ :: [] ∧
      (events faulted [.btfeRequest ⟨0, cmdA, [4], [], []⟩]).cur.btfe.phase = .idle :=
  ⟨⟨_, rfl⟩, rfl, rfl, rfl, rfl, rfl⟩

/-- Each way an operation ends in a TransportError, the stall after the last round of a limit of 0 among them. -/
theorem witness_TransportErrorLeavesTheEngineUsable :
    failsWith (mid .cbwOut true [.stall] [] []).cur .stall ∧ failsWith (mid .dataOut false [.err .timeout] [] []).cur .timeout ∧
      failsWith (mid .dataIn true [] [.err .other] []).cur .other ∧
      failsWith (mid .cswIn true [] [.err .disconnect] []).cur .disconnect ∧
      failsWith (configured { btfeDefault with retryLimit := some 0 } (mid .cswIn true [] [.stall] [])).cur .stall ∧
      failsWith (mid .clearHalt true [] [] [.err .timeout]).cur .timeout ∧
      (mid .clearHalt true [] [] [.err .timeout]).cur.btfe.fault = false ∧
      requestsBytes (.writeCommandRaw cmdA [1, 2]) 2 ∧ (Instr.writeCommandRaw cmdA [1, 2]).wellFormed sigC = true :=
  ⟨.inl ⟨.inl rfl, [], .inr ⟨rfl, rfl⟩⟩, .inl ⟨.inr rfl, [], .inl rfl⟩, .inr (.inl ⟨rfl, [], .inl rfl⟩),
    .inr (.inr (.inl ⟨rfl, [], .inl rfl⟩)), .inr (.inr (.inl ⟨rfl, [], .inr ⟨rfl, rfl, rfl⟩⟩)),
    .inr (.inr (.inr ⟨rfl, [], rfl⟩)), rfl, .inr (.inr ⟨_, _, rfl, rfl⟩), by decide⟩

theorem witness_ConfigurationNeverChanges : ∃ t, step (events ready [.globalReset]) = .next t := ⟨_, rfl⟩

theorem witness_BlocksShareNoState :
    (∃ t, exec .matrixInit State.reset = .next t) ∧ (∃ t, exec .fetchTag State.reset = .next t) ∧
      isOdppInstr .matrixInit = true ∧ isOdppInstr .fetchTag = false := ⟨⟨_, rfl⟩, ⟨_, rfl⟩, rfl, rfl⟩

theorem witness_GlobalResetPutsTheBlocksIntoReset :
    (events (running 3) [.globalReset]).inbox = .globalReset :: [] ∧ (running 3).odpp.cfg.rom = false ∧
      (events withRom [.globalReset]).inbox = .globalReset :: [] ∧ withRom.odpp.cfg.rom = true ∧
      3 < withRom.odpp.cfg.side * withRom.odpp.cfg.side := by decide

theorem witness_SessionResetClearsTheInstance :
    (events faulted [.sessionReset]).inbox = .sessionReset :: [] := by decide

theorem witness_RegistersAreReadAtThePort :
    (events faulted [.readCsw]).inbox = .readCsw :: [] ∧ (events faulted [.readErr]).inbox = .readErr :: [] ∧
      faulted.cur.btfe.cswValid = false := by decide

theorem witness_MatrixInitWritesTheTableOnce :
    State.reset.odpp.busy = false ∧ State.reset.odpp.matrixReady = false ∧ 1 < State.reset.odpp.cfg.side ∧
      ready.odpp.busy = false ∧ ready.odpp.matrixReady = true ∧ (running 0).odpp.busy = true := by decide

theorem witness_LookUpReturnsTheEntry :
    OdppInv ready.odpp ∧ ready.odpp.matrixReady = true ∧ ready.odpp.cfg.side = 2 ∧
      Memory.read ready.odpp.thresh ((7 % 2) * 2 + 5 % 2) = some 64 ∧ State.reset.odpp.matrixReady = false :=
  ⟨inv_ready, rfl, rfl, rfl, rfl⟩

/-- One byte more or fewer in GRAY than pixels is bad; 8 by 1 is good. -/
theorem witness_DitherIsAcceptedOrRefused :
    (running 0).odpp.busy = true ∧ State.reset.odpp.busy = false ∧ State.reset.odpp.matrixReady = false ∧
      ready.odpp.busy = false ∧ ready.odpp.matrixReady = true ∧
      Memory.holdsFrame ready.odpp.gray ((8 : Word).toNat * (1 : Word).toNat) = true ∧
      (8 : Word).toNat * (1 : Word).toNat % 8 = 0 ∧ Memory.holdsFrame ready.odpp.gray 7 = false ∧
      Memory.holdsFrame ready.odpp.gray 9 = false := by decide

/-- H1. -/
theorem witness_DitherPacksTheFrame :
    OdppInv ready.odpp ∧ ready.odpp.busy = false ∧ ready.odpp.matrixReady = true ∧ (8 : Word).toNat ≠ 0 ∧
      (1 : Word).toNat ≠ 0 ∧ (8 : Word).toNat * (1 : Word).toNat % 8 = 0 ∧
      ([0, 255, 100, 200, 128, 129, 64, 65] : List Byte).length = (8 : Word).toNat * (1 : Word).toNat ∧
      ready.odpp.gray = Memory.ofBytesFrom 0 [0, 255, 100, 200, 128, 129, 64, 65] :=
  ⟨inv_ready, rfl, rfl, by decide, by decide, by decide, by decide, rfl⟩

/-- The last pixel of the frame. -/
theorem witness_PixelStepWritesOneBit : OdppInv (running 7).odpp ∧ (running 7).odpp.busy = true := ⟨inv_running, rfl⟩

theorem witness_OdppHasNoErrorState :
    isOdppInstr (.lookUp 0 0) = true ∧ OdppInv ready.odpp ∧ OdppInv (running 7).odpp := ⟨rfl, inv_ready, inv_running⟩

theorem witness_FrameMemoriesAtThePort :
    (events (running 7) [.loadGray [1]]).inbox = .loadGray [1] :: [] ∧ (running 7).odpp.busy = true ∧
      (events ready [.loadGray []]).inbox = .loadGray [] :: [] ∧ ready.odpp.busy = false ∧
      (events ready [.readPacked 0]).inbox = .readPacked 0 :: [] ∧
      (events (running 7) [.readPacked 0]).inbox = .readPacked 0 :: [] ∧ Memory.read ready.odpp.packed 0 = none ∧
      Memory.read (running 7).odpp.packed 0 = some 0 := by decide

end Sys2Proof.Tests
end

section
/-! The wire bytes of an encoded command wrapper (spec/30_encoding.md R90 to R92). -/

namespace Sys2Proof

/-- One byte of a word read two ways: by division (R11) and as a bit range. -/
theorem ofNat_toNat_div_eq_extractLsb' (v : Word) (start : Nat) :
    BitVec.ofNat 8 (v.toNat / 2 ^ start) = v.extractLsb' start 8 := by
  rw [← Nat.shiftRight_eq_div_pow, BitVec.extractLsb']

theorem le32_eq_extractLsb' (v : Word) :
    le32 v = [v.extractLsb' 0 8, v.extractLsb' 8 8, v.extractLsb' 16 8, v.extractLsb' 24 8] := by
  simp [← ofNat_toNat_div_eq_extractLsb', le32, leBytes, Nat.div_div_eq_div_mul]

theorem encodeCbw_eq (sig : Quad) (tag xlen : Word) (dir : Bool) (cmd : List Byte) :
    encodeCbw sig tag xlen dir cmd =
      sig.bytes ++ (le32 tag ++ (le32 xlen ++ ((if dir then 0x80 else 0x00) :: 0x00 :: 0x10 :: cmd))) := rfl

theorem length_encodeCbw (sig : Quad) (tag xlen : Word) (dir : Bool) (cmd : List Byte) :
    (encodeCbw sig tag xlen dir cmd).length = 15 + cmd.length := by
  simp only [encodeCbw_eq, List.length_append, length_quad, length_le32, List.length_cons]
  omega

/-- Settles O9: the fields of R92 in order, each word spelled out byte by byte. -/
theorem commandWrapperBytes : Obligations.CommandWrapperBytes := by
  intro sig tag xlen dir cmd hcmd
  constructor
  · rw [encodeCbw_eq, le32_eq_extractLsb', le32_eq_extractLsb']
    rfl
  · rw [length_encodeCbw, hcmd]

end Sys2Proof
end

section
/-! Typed values as bytes (spec/40_transport_ops.md R133). -/

namespace Sys2Proof.Machine

/-- Byte j of `le_w(v)` is digit j of v to the base 256 (R11). -/
theorem getElem?_leBytes (w v j : Nat) (hj : j < w) : (leBytes w v)[j]? = some (BitVec.ofNat 8 (v / 256 ^ j)) := by
  induction w generalizing v j with
  | zero => omega
  | succ w ih =>
    cases j with
    | zero => simp [leBytes]
    | succ j =>
      rw [leBytes, List.getElem?_cons_succ, ih (v / 256) j (by omega), Nat.div_div_eq_div_mul, ← Nat.pow_succ']

theorem encodeValue_eq_flatten_zipWith (shape : List Nat) (enc : Enc) (value : List Nat) :
    encodeValue shape enc value = (List.zipWith (encodeField enc) shape value).flatten := by
  induction shape generalizing value with
  | nil => rfl
  | cons w ws ih =>
    cases value with
    | nil => rfl
    | cons v vs => rw [encodeValue, ih, List.zipWith_cons_cons, List.flatten_cons]

/-- Settles O12: the digits of a field, the fields one after another, and their number by `length_encodeValue`. -/
theorem encodedValueBytes : Obligations.EncodedValueBytes := by
  refine ⟨getElem?_leBytes, fun _ _ => rfl, ?_, fun _ => rfl, fun _ => rfl, by decide, by decide⟩
  intro shape enc value hfits
  exact ⟨encodeValue_eq_flatten_zipWith shape enc value, length_encodeValue shape enc value hfits⟩

end Sys2Proof.Machine
end

section
/-! WRITE_COMMAND_RAW as WRITE_COMMAND of the empty shape (spec/40_transport_ops.md R158). -/

namespace Sys2Proof.Machine

/-- OPSEL = 2 with ENC = 0 (R105). -/
theorem decode_rawHead (q : BtfeRequest) (hq : q.head = 0b00000010) :
    decode (.btfe q) = .ok (.writeCommandRaw q.cmd q.extra) := by
  simp [decode, decodeBtfe, hq]

theorem writeOperation_emptyShape (enc : Enc) (cmd data : List Byte) :
    writeOperation enc cmd [] [] data = ⟨cmdOk cmd, false, cmd, data.length, some data, [], enc⟩ := by
  simp [writeOperation, shapeOk, valueFits, shapeSize, encodeValue]

/-- A raw write that is accepted is latched whole (R131, R158). -/
theorem exec_writeCommandRaw_accepted (s : State) (cmd data : List Byte) (hidle : s.cur.btfe.phase = .idle)
    (hfault : s.cur.btfe.fault = false) (hcmd : cmd.length = 16) (hdata : data.length < 2 ^ 32) :
    exec (.writeCommandRaw cmd data) s = .next (s.withCur (s.cur.withBtfe
      (latchOperation ⟨cmdOk cmd, false, cmd, data.length, some data, [], .be⟩ s.cur.btfe))) := by
  have hok : cmdOk cmd = true := beq_iff_eq.mpr hcmd
  rw [exec, execWriteCommandRaw, writeOperation_emptyShape, accept_ok _ _ hidle hfault hok hdata]

/-- Settles O20: both requests are the acceptance of the same operands, and what acceptance latches is read off. -/
theorem rawWriteIsWriteOfEmptyShape : Obligations.RawWriteIsWriteOfEmptyShape := by
  refine ⟨fun _ _ _ => rfl, decode_rawHead, ?_⟩
  intro s cmd data hidle hfault hcmd hdata
  refine ⟨_, exec_writeCommandRaw_accepted s cmd data hidle hfault hcmd hdata, rfl, rfl, ?_, rfl⟩
  exact Nat.mod_eq_of_lt hdata

end Sys2Proof.Machine
end

section
/-! The status wrapper and its optional checks (spec/40_transport_ops.md R141). -/

namespace Sys2Proof.Machine

theorem cswFields_cswBytes (r : CswRecord) : cswFields (cswBytes r) = r := by
  have htag : unle32 (slice (cswBytes r) 4 4) = r.tag := unle32_le32 r.tag
  have hresidue : unle32 (slice (cswBytes r) 8 4) = r.residue := unle32_le32 r.residue
  rw [cswFields, htag, hresidue]
  rfl

/-- The session in which a status wrapper has been read and latched, before its checks (R140, R141). -/
def latchCsw (r : CswRecord) (ss : Session) : Session :=
  (ss.log (.bulkIn ss.btfe.cfg.epIn cswLen (.data (cswBytes r)))).withBtfe
    (latchFields r { ss.btfe with cswbuf := cswBytes r })

/-- A status wrapper is latched; then a check that is on and fails raises, or the operation is complete. -/
theorem exec_csw (r : CswRecord) (s : State) :
    exec (.csw r) s = .next (s.withCur
      (if cswCheckFails (latchCsw r s.cur).btfe then raiseProtocol (latchCsw r s.cur)
        else endOperation (latchCsw r s.cur))) := by
  simp only [exec, execCsw, takeCsw, cswFields_cswBytes]
  rfl

/-- What the checks compare once the wrapper is latched; the residue is not looked at (R141). -/
theorem cswCheckFails_latchCsw (r : CswRecord) (ss : Session) :
    cswCheckFails (latchCsw r ss).btfe = true ↔
      (ss.btfe.cfg.checkCswSignature = true ∧ r.signature ≠ ss.btfe.cfg.cswSignature) ∨
        (ss.btfe.cfg.checkCswTag = true ∧ r.tag ≠ ss.btfe.tag) ∨
        (ss.btfe.cfg.checkCswStatus = true ∧ r.status ≠ 0) := by
  simp [cswCheckFails, latchCsw, latchFields, or_assoc]

/-- Settles O33: the wrapper is latched on both branches of `exec_csw`, and the branch is the one the checks name. -/
theorem optionalChecksRaiseAfterLatching : Obligations.OptionalChecksRaiseAfterLatching := by
  intro s r hphase bad
  have hbad : cswCheckFails (latchCsw r s.cur).btfe = true ↔ bad := cswCheckFails_latchCsw r s.cur
  refine ⟨_, exec_csw r s, ?_⟩
  by_cases hfails : cswCheckFails (latchCsw r s.cur).btfe = true
  · rw [if_pos hfails]
    have hcode : phaseCode s.cur.btfe.phase = 6 := by rw [hphase]; rfl
    exact ⟨rfl, rfl, rfl, rfl, rfl, rfl, fun _ => ⟨rfl, rfl, rfl, hcode, rfl⟩, fun hn => absurd (hbad.mp hfails) hn⟩
  · rw [if_neg hfails]
    exact ⟨rfl, rfl, rfl, rfl, rfl, rfl, fun hb => absurd (hbad.mpr hb) hfails, fun _ => ⟨rfl, rfl, rfl⟩⟩

end Sys2Proof.Machine
end

section
/-! The wire records read back as written, and written as read (spec/30_encoding.md R90 to R98). -/

namespace Sys2Proof

open Machine

theorem cbwFields_cbwBytes (r : CbwRecord) (hr : r.command.length = 16) : cbwFields (cbwBytes r) = r := by
  have htag : unle32 (slice (cbwBytes r) 4 4) = r.tag := unle32_le32 r.tag
  have hlength : unle32 (slice (cbwBytes r) 8 4) = r.transferLength := unle32_le32 r.transferLength
  have hcommand : slice (cbwBytes r) 15 16 = r.command := List.take_of_length_le hr.le
  rw [cbwFields, htag, hlength, hcommand]
  rfl

theorem slice_append_drop (s : List Byte) (a n : Nat) : slice s a n ++ s.drop (a + n) = s.drop a := by
  rw [slice, ← List.drop_drop, List.take_append_drop]

theorem getD_cons_drop (s : List Byte) (a : Nat) (ha : a < s.length) : s.getD a 0 :: s.drop (a + 1) = s.drop a := by
  rw [List.drop_eq_getElem_cons ha, List.getD_eq_getElem _ _ ha]

theorem length_slice (s : List Byte) (a n : Nat) (h : a + n ≤ s.length) : (slice s a n).length = n := by
  rw [slice, List.length_take, List.length_drop]
  omega

theorem slice_to_end (s : List Byte) (a n : Nat) (h : s.length ≤ a + n) : slice s a n = s.drop a :=
  List.take_of_length_le (by rw [List.length_drop]; omega)

theorem cbwBytes_cbwFields (b : List Byte) (hb : b.length = 31) : cbwBytes (cbwFields b) = b := by
  simp only [cbwBytes, cbwFields]
  rw [bytes_quadOf _ (length_slice _ _ _ (by omega)), le32_unle32 _ (length_slice _ _ _ (by omega)),
    le32_unle32 _ (length_slice _ _ _ (by omega)), slice_to_end b 15 16 (by omega), getD_cons_drop b 14 (by omega),
    getD_cons_drop b 13 (by omega), getD_cons_drop b 12 (by omega), slice_append_drop, slice_append_drop,
    slice_append_drop]
  rfl

theorem cswBytes_cswFields (b : List Byte) (hb : b.length = 13) : cswBytes (cswFields b) = b := by
  have hlast : [b.getD 12 0] = b.drop 12 := by
    rw [← getD_cons_drop b 12 (by omega), List.drop_eq_nil_of_le (by omega)]
  simp only [cswBytes, cswFields]
  rw [bytes_quadOf _ (length_slice _ _ _ (by omega)), le32_unle32 _ (length_slice _ _ _ (by omega)),
    le32_unle32 _ (length_slice _ _ _ (by omega)), hlast, slice_append_drop, slice_append_drop, slice_append_drop]
  rfl

@[simp] theorem length_cswBytes (r : CswRecord) : (cswBytes r).length = 13 := by simp [cswBytes]

theorem length_cbwBytes (r : CbwRecord) : (cbwBytes r).length = 15 + r.command.length := by
  simp only [cbwBytes, List.length_append, length_quad, length_le32, List.length_cons]
  omega

/-- Settles O10: `cbwFields_cbwBytes` at the record the engine encodes, and its well-formedness field by field. -/
theorem commandWrapperRoundTrip : Obligations.CommandWrapperRoundTrip := by
  have hdecoded (sig : Quad) (tag xlen : Word) (dir : Bool) (cmd : List Byte) (hcmd : cmd.length = 16) :
      cbwFields (encodeCbw sig tag xlen dir cmd) = cbwOf sig tag xlen dir cmd := cbwFields_cbwBytes _ hcmd
  refine ⟨hdecoded, cbwBytes_cbwFields, fun sig tag xlen dir cmd hcmd => ?_, fun sig r hsig => ?_⟩
  · rw [hdecoded sig tag xlen dir cmd hcmd]
    cases dir <;> simp [CbwRecord.wellFormed, cbwOf, cmdOk, cmdLen, hcmd]
  · simp [CbwRecord.wellFormed, hsig]

/-- Settles O11: the bytes of each word by `le32_eq_extractLsb'`, and the two round trips. -/
theorem statusWrapperRoundTrip : Obligations.StatusWrapperRoundTrip := by
  refine ⟨fun r => ⟨?_, cswFields_cswBytes r⟩, cswBytes_cswFields⟩
  rw [cswBytes, le32_eq_extractLsb', le32_eq_extractLsb']
  rfl

end Sys2Proof
end

section
/-! The request heads: their fields, and the round trip of the whole encoding (spec/30_encoding.md R105 to R108). -/

namespace Sys2Proof

open Machine

/-! ### The fields of a head as numbers -/

theorem btfeReservedBits_eq_zero_iff : ∀ h : Byte, h.extractLsb' 3 5 = 0 ↔ h.toNat < 8 := by decide

theorem odppReservedBits_eq_zero_iff : ∀ h : Byte, h.extractLsb' 2 6 = 0 ↔ h.toNat < 4 := by decide

theorem opsel_eq_iff : ∀ (k : BitVec 2) (h : Byte), h.extractLsb' 0 2 = k ↔ h.toNat % 4 = k.toNat := by decide

theorem encBit_eq : ∀ h : Byte, h.toNat < 8 → h.getLsbD 2 = decide (4 ≤ h.toNat) := by decide

/-! ### A head is its fields -/

theorem btfeHead_eq_of_fields : ∀ h : Byte, h.extractLsb' 3 5 = 0 → btfeHead (h.extractLsb' 0 2) (h.getLsbD 2) = h := by
  decide

theorem odppHead_eq_of_fields : ∀ h : Byte, h.extractLsb' 2 6 = 0 → odppHead (h.extractLsb' 0 2) = h := by decide

@[simp] theorem btfeHead_reservedBits : ∀ (k : BitVec 2) (e : Bool), (btfeHead k e).extractLsb' 3 5 = 0 := by decide
@[simp] theorem btfeHead_opsel : ∀ (k : BitVec 2) (e : Bool), (btfeHead k e).extractLsb' 0 2 = k := by decide
@[simp] theorem btfeHead_encBit : ∀ (k : BitVec 2) (e : Bool), (btfeHead k e)[2] = e := by decide
@[simp] theorem odppHead_reservedBits : ∀ k : BitVec 2, (odppHead k).extractLsb' 2 6 = 0 := by decide
@[simp] theorem odppHead_opsel : ∀ k : BitVec 2, (odppHead k).extractLsb' 0 2 = k := by decide

@[simp] theorem encOfBit_bitOfEnc (enc : Enc) : encOfBit (bitOfEnc enc) = enc := by cases enc <;> rfl
@[simp] theorem bitOfEnc_encOfBit (e : Bool) : bitOfEnc (encOfBit e) = e := by cases e <;> rfl

theorem opsel_eq_three : ∀ k : BitVec 2, k ≠ 0 → k ≠ 1 → k ≠ 2 → k = 3 := by decide

/-! ### The wire decoder by the length of the record -/

theorem decodeWire_of_length_31 (b : List Byte) (hb : b.length = 31) : decodeWire b = .ok (.cbw (cbwFields b)) :=
  if_pos hb

theorem decodeWire_of_length_13 (b : List Byte) (hb : b.length = 13) : decodeWire b = .ok (.csw (cswFields b)) := by
  rw [decodeWire, if_neg (by simp [hb, cbwLen]), if_pos (show b.length = cswLen from hb)]

/-! ### The obligations -/

/-- Settles O5, along the constructors: a record by its length and the round trip of its fields, a request by the fields of
its head. -/
theorem decodeOfEncodeIsTheInstruction : Obligations.DecodeOfEncodeIsTheInstruction := by
  intro sig i e hwf henc
  cases i <;> cases henc
  case cbw r =>
    have hcmd : r.command.length = 16 := by
      simp only [Instr.wellFormed, CbwRecord.wellFormed, Bool.and_eq_true, cmdOk, beq_iff_eq] at hwf
      exact hwf.2
    rw [decode, decodeWire_of_length_31 _ (by rw [length_cbwBytes, hcmd]), cbwFields_cbwBytes r hcmd]
  case csw r => rw [decode, decodeWire_of_length_13 _ (length_cswBytes r), cswFields_cswBytes]
  case readCommand | writeCommand | writeCommandRaw | btfeReserved => simp [decode, decodeBtfe]
  case matrixInit | lookUp | ditherAndPack | odppReserved => simp [decode, decodeOdpp]

theorem encode_of_decodeWire (b : List Byte) (i : Instr) (h : decodeWire b = .ok i) : encode i = some (.wire b) := by
  unfold decodeWire at h
  split_ifs at h with h31 h13
  · cases h
    rw [encode, cbwBytes_cbwFields b h31]
  · cases h
    rw [encode, cswBytes_cswFields b h13]

/-- The head the encoder writes for a decoded BTFE request is made of the fields of the head decoded. -/
theorem encode_head_of_decodeBtfe (q : BtfeRequest) (i : Instr) (h : decodeBtfe q = .ok i) :
    ∃ q', encode i = some (.btfe q') ∧ q'.head = q.head := by
  unfold decodeBtfe at h
  split_ifs at h with hr h0 h1 h2 he <;> cases h <;> refine ⟨_, rfl, ?_⟩
  all_goals have hhead := btfeHead_eq_of_fields q.head (not_not.mp hr)
  · rwa [h0, ← bitOfEnc_encOfBit (q.head.getLsbD 2)] at hhead
  · rwa [h1, ← bitOfEnc_encOfBit (q.head.getLsbD 2)] at hhead
  · rwa [h2, Bool.eq_false_iff.mpr he] at hhead
  · rwa [opsel_eq_three _ h0 h1 h2] at hhead

/-- The same at the ODPP port. -/
theorem encode_head_of_decodeOdpp (q : OdppRequest) (i : Instr) (h : decodeOdpp q = .ok i) :
    ∃ q', encode i = some (.odpp q') ∧ q'.head = q.head := by
  unfold decodeOdpp at h
  split_ifs at h with hr h0 h1 h2 <;> cases h <;> refine ⟨_, rfl, ?_⟩
  all_goals have hhead := odppHead_eq_of_fields q.head (not_not.mp hr)
  · rwa [h0] at hhead
  · rwa [h1] at hhead
  · rwa [h2] at hhead
  · rwa [opsel_eq_three _ h0 h1 h2] at hhead

/-- Settles O6, port by port. -/
theorem encodeOfDecodeKeepsTheWord : Obligations.EncodeOfDecodeKeepsTheWord :=
  ⟨encode_of_decodeWire, encode_head_of_decodeBtfe, encode_head_of_decodeOdpp⟩

/-- Settles O7: each test of the two decoders, read as a comparison of the head's number. -/
theorem illegalHeadsAreRejectedByName : Obligations.IllegalHeadsAreRejectedByName := by
  constructor
  · intro q
    split_ifs with h8 h6 h3
    · exact if_pos fun hr => absurd ((btfeReservedBits_eq_zero_iff _).mp hr) (by omega)
    all_goals
      have hlt : q.head.toNat < 8 := by omega
      simp only [decodeBtfe, ne_eq, btfeReservedBits_eq_zero_iff, opsel_eq_iff, encBit_eq q.head hlt, hlt]
    · simp [h6]
    · have hseven : 4 ≤ q.head.toNat ↔ q.head.toNat = 7 := by omega
      simp [h3, hseven]
    · have hopsel : q.head.toNat % 4 = 0 ∨ q.head.toNat % 4 = 1 ∨ q.head.toNat = 2 := by omega
      rcases hopsel with h | h | h <;> simp [h]
  · intro q
    split_ifs with h4 h3
    · exact if_pos fun hr => absurd ((odppReservedBits_eq_zero_iff _).mp hr) (by omega)
    all_goals
      have hlt : q.head.toNat < 4 := by omega
      simp only [decodeOdpp, ne_eq, odppReservedBits_eq_zero_iff, opsel_eq_iff, hlt]
    · simp [h3]
    · have hopsel : q.head.toNat = 0 ∨ q.head.toNat = 1 ∨ q.head.toNat = 2 := by omega
      rcases hopsel with h | h | h <;> simp [h]

/-! ### The requests by the numbers of their heads -/

theorem decode_matrixInitHead (q : OdppRequest) (hq : q.head = 0b00000000) : decode (.odpp q) = .ok .matrixInit := by
  simp [decode, decodeOdpp, hq]

theorem decode_lookUpHead (q : OdppRequest) (hq : q.head = 0b00000001) : decode (.odpp q) = .ok (.lookUp q.x q.y) := by
  simp [decode, decodeOdpp, hq]

theorem decode_ditherHead (q : OdppRequest) (hq : q.head = 0b00000010) :
    decode (.odpp q) = .ok (.ditherAndPack q.width q.height) := by
  simp [decode, decodeOdpp, hq]

/-- Settles O8: the two wire records by evaluation, each request by the number of its head. -/
theorem wordsOfTheSpecDecode : Obligations.WordsOfTheSpecDecode := by
  refine ⟨rfl, rfl, ?_, ?_, fun _ _ => decode_rawHead _ rfl, ?_, fun _ _ _ _ => decode_matrixInitHead _ rfl,
    fun _ _ => decode_lookUpHead _ rfl, fun _ _ => decode_ditherHead _ rfl, ?_⟩
  · simp [decode, decodeBtfe, encOfBit]
  · simp [decode, decodeBtfe, encOfBit]
  · simp [decode, decodeBtfe]
  · simp [decode, decodeOdpp]

end Sys2Proof
end

section
/-! The steps of a BTFE session, one equation for each phase and for each answer of the environment (spec/10_state.md R24,
R25, spec/40_transport_ops.md R132, R140, R150, R155). -/

namespace Sys2Proof.Machine

/-! ### A port call and its answer -/

/-- The session after a BulkOut that was answered: the answer is taken and the call is in the trace (R14, R16). -/
def outAnswered (ss : Session) (bytes : List Byte) (a : OutAnswer) (rest : List OutAnswer) : Session :=
  Session.log { ss with port := { ss.port with outAns := rest } } (.bulkOut ss.btfe.cfg.epOut bytes a)

/-- The session after a BulkIn that was answered. -/
def inAnswered (ss : Session) (n : Nat) (a : InAnswer) (rest : List InAnswer) : Session :=
  Session.log { ss with port := { ss.port with inAns := rest } } (.bulkIn ss.btfe.cfg.epIn n a)

/-- The session after a ClearHalt that was answered. -/
def clearAnswered (ss : Session) (a : ClearAnswer) (rest : List ClearAnswer) : Session :=
  Session.log { ss with port := { ss.port with clearAns := rest } } (.clearHalt ss.btfe.cfg.epIn a)

@[simp] theorem outAnswered_btfe (ss : Session) (bytes : List Byte) (a : OutAnswer) (rest : List OutAnswer) :
    (outAnswered ss bytes a rest).btfe = ss.btfe := rfl

@[simp] theorem inAnswered_btfe (ss : Session) (n : Nat) (a : InAnswer) (rest : List InAnswer) :
    (inAnswered ss n a rest).btfe = ss.btfe := rfl

@[simp] theorem clearAnswered_btfe (ss : Session) (a : ClearAnswer) (rest : List ClearAnswer) :
    (clearAnswered ss a rest).btfe = ss.btfe := rfl

section
variable (ss : Session)

theorem sendCbw_nil (bytes : List Byte) (h : ss.port.outAns = []) : sendCbw bytes ss = ss := by
  rw [sendCbw, bulkOut_nil ss bytes h]

theorem sendCbw_cons (bytes : List Byte) (a : OutAnswer) (rest : List OutAnswer) (h : ss.port.outAns = a :: rest) :
    sendCbw bytes ss =
      match a with
      | .ok => (outAnswered ss bytes .ok rest).toPhase (if ss.btfe.dir then .dataIn else .dataOut)
      | .stall => raiseTransport (outAnswered ss bytes .stall rest) .stall
      | .err k => raiseTransport (outAnswered ss bytes (.err k) rest) k := by
  rw [sendCbw, bulkOut_cons ss bytes a rest h]
  cases a <;> rfl

theorem dataOutStep_nil (h : ss.port.outAns = []) : dataOutStep ss = ss := by
  rw [dataOutStep, bulkOut_nil ss _ h]

theorem dataOutStep_cons (a : OutAnswer) (rest : List OutAnswer) (h : ss.port.outAns = a :: rest)
    (hlen : ss.btfe.dbuf.length = ss.btfe.xlen.toNat) :
    dataOutStep ss =
      match a with
      | .ok => enterHandshake (outAnswered ss ss.btfe.dbuf .ok rest)
      | .stall => raiseTransport (outAnswered ss ss.btfe.dbuf .stall rest) .stall
      | .err k => raiseTransport (outAnswered ss ss.btfe.dbuf (.err k) rest) k := by
  rw [dataOutStep, List.take_of_length_le hlen.le, bulkOut_cons ss _ a rest h]
  cases a <;> rfl

theorem dataInStep_nil (h : ss.port.inAns = []) : dataInStep ss = ss := by
  rw [dataInStep, bulkIn_nil ss _ h]

/-- All the bytes asked for arrive. -/
theorem dataInStep_data (bytes : List Byte) (rest : List InAnswer) (h : ss.port.inAns = .data bytes :: rest)
    (hlen : ss.btfe.xlen.toNat ≤ bytes.length) :
    dataInStep ss =
      (inAnswered ss ss.btfe.xlen.toNat (.data (bytes.take ss.btfe.xlen.toNat)) rest).withBtfe
        { ss.btfe with dbuf := bytes.take ss.btfe.xlen.toNat, phase := .decode } := by
  rw [dataInStep, bulkIn_cons ss _ _ rest h]
  exact if_neg (not_not.mpr (List.length_take_of_le hlen))

/-- Fewer bytes than asked for arrive (D10). -/
theorem dataInStep_short (bytes : List Byte) (rest : List InAnswer) (h : ss.port.inAns = .data bytes :: rest)
    (hlen : bytes.length < ss.btfe.xlen.toNat) :
    dataInStep ss = raiseProtocol (inAnswered ss ss.btfe.xlen.toNat (.data bytes) rest) := by
  rw [dataInStep, bulkIn_cons ss _ _ rest h]
  simp only [clipAnswer, List.take_of_length_le hlen.le]
  exact if_pos (by simpa using hlen.ne)

theorem dataInStep_stall (rest : List InAnswer) (h : ss.port.inAns = .stall :: rest) :
    dataInStep ss = raiseTransport (inAnswered ss ss.btfe.xlen.toNat .stall rest) .stall := by
  rw [dataInStep, bulkIn_cons ss _ _ rest h]
  rfl

theorem dataInStep_err (k : ErrKind) (rest : List InAnswer) (h : ss.port.inAns = .err k :: rest) :
    dataInStep ss = raiseTransport (inAnswered ss ss.btfe.xlen.toNat (.err k) rest) k := by
  rw [dataInStep, bulkIn_cons ss _ _ rest h]
  rfl

theorem cswInStep_nil (h : ss.port.inAns = []) : cswInStep ss = ss := by
  rw [cswInStep, bulkIn_nil ss _ h]

/-- A status wrapper arrives; of a longer answer its 13 bytes (log 7). -/
theorem cswInStep_data (bytes : List Byte) (rest : List InAnswer) (h : ss.port.inAns = .data bytes :: rest)
    (hlen : 13 ≤ bytes.length) :
    cswInStep ss = takeCsw (bytes.take 13) (inAnswered ss 13 (.data (bytes.take 13)) rest) := by
  rw [cswInStep, bulkIn_cons ss _ _ rest h]
  exact if_neg (not_not.mpr (List.length_take_of_le hlen))

theorem cswInStep_short (bytes : List Byte) (rest : List InAnswer) (h : ss.port.inAns = .data bytes :: rest)
    (hlen : bytes.length < 13) : cswInStep ss = raiseProtocol (inAnswered ss 13 (.data bytes) rest) := by
  rw [cswInStep, bulkIn_cons ss _ _ rest h]
  simp only [clipAnswer, cswLen, List.take_of_length_le hlen.le]
  exact if_pos hlen.ne

theorem cswInStep_stall (rest : List InAnswer) (h : ss.port.inAns = .stall :: rest) :
    cswInStep ss =
      if retriesSpent ss.btfe then raiseTransport (inAnswered ss 13 .stall rest) .stall
      else (inAnswered ss 13 .stall rest).toPhase .clearHalt := by
  rw [cswInStep, bulkIn_cons ss _ _ rest h]
  rfl

theorem cswInStep_err (k : ErrKind) (rest : List InAnswer) (h : ss.port.inAns = .err k :: rest) :
    cswInStep ss = raiseTransport (inAnswered ss 13 (.err k) rest) k := by
  rw [cswInStep, bulkIn_cons ss _ _ rest h]
  rfl

theorem clearHaltStep_nil (h : ss.port.clearAns = []) : clearHaltStep ss = ss := by
  rw [clearHaltStep, clearHalt_nil ss h]

theorem clearHaltStep_ok (rest : List ClearAnswer) (h : ss.port.clearAns = .ok :: rest) :
    clearHaltStep ss =
      (clearAnswered ss .ok rest).withBtfe { ss.btfe with phase := .cswIn, rounds := ss.btfe.rounds + 1 } := by
  rw [clearHaltStep, clearHalt_cons ss _ rest h]
  rfl

theorem clearHaltStep_err (k : ErrKind) (rest : List ClearAnswer) (h : ss.port.clearAns = .err k :: rest) :
    clearHaltStep ss = raiseTransport (clearAnswered ss (.err k) rest) k := by
  rw [clearHaltStep, clearHalt_cons ss _ rest h]
  rfl

end

/-! ### The status wrapper that arrives, and the handshake that reads it -/

theorem arrivingCsw_of_data (ss : Session) (bytes : List Byte) (rest : List InAnswer)
    (h : ss.port.inAns = .data bytes :: rest) (hlen : 13 ≤ bytes.length) :
    arrivingCsw ss = some (cswFields (bytes.take 13)) := by
  rw [arrivingCsw, h]
  exact if_pos (List.length_take_of_le hlen)

theorem arrivingCsw_eq_none (ss : Session)
    (h : ∀ bytes rest, ss.port.inAns = .data bytes :: rest → bytes.length < 13) : arrivingCsw ss = none := by
  unfold arrivingCsw
  split
  · next bytes rest hin =>
    have hlt := h bytes rest hin
    refine if_neg ?_
    rw [List.length_take, cswLen]
    omega
  · rfl

/-- The wrapper that arrives, executed as an instruction, does what the CSW_IN step does (R140, log 13). -/
theorem exec_arriving_csw (s : State) (bytes : List Byte) (rest : List InAnswer)
    (h : s.cur.port.inAns = .data bytes :: rest) (hlen : 13 ≤ bytes.length) :
    exec (.csw (cswFields (bytes.take 13))) (s.withCur (takeAnswer s.cur)) = .next (s.withCur (cswInStep s.cur)) := by
  have hbytes : cswBytes (cswFields (bytes.take 13)) = bytes.take 13 :=
    cswBytes_cswFields _ (List.length_take_of_le hlen)
  rw [cswInStep_data _ bytes rest h hlen, exec, execCsw, hbytes]
  simp only [takeAnswer, h]
  rfl

theorem exec_statusHandshake_cswIn (s : State) (h : s.cur.btfe.phase = .cswIn) :
    exec .statusHandshake s = .next (s.withCur (cswInStep s.cur)) := by
  rw [exec, execStatusHandshake, handshakeStep, h]

theorem exec_statusHandshake_clearHalt (s : State) (h : s.cur.btfe.phase = .clearHalt) :
    exec .statusHandshake s = .next (s.withCur (clearHaltStep s.cur)) := by
  rw [exec, execStatusHandshake, handshakeStep, h]

/-! ### The step of each phase -/

section
variable (s : State)

theorem btfeStep_idle (h : s.cur.btfe.phase = .idle) : btfeStep s = .next s := by
  rw [btfeStep, h]

theorem btfeStep_tag (h : s.cur.btfe.phase = .tag) :
    btfeStep s = .next { s with
      tagctr := s.tagctr + 1
      cur := buildCbw (s.cur.withBtfe { s.cur.btfe with tag := s.tagctr }) } := by
  rw [btfeStep, h]
  rfl

theorem btfeStep_cbwOut (h : s.cur.btfe.phase = .cbwOut) (hlen : s.cur.btfe.cbwbuf.length = 31) :
    btfeStep s = .next (s.withCur (sendCbw s.cur.btfe.cbwbuf s.cur)) := by
  rw [btfeStep, h]
  simp only [exec, execCbw, cbwBytes_cbwFields _ hlen]

theorem btfeStep_dataIn (h : s.cur.btfe.phase = .dataIn) : btfeStep s = .next (s.withCur (dataInStep s.cur)) := by
  rw [btfeStep, h]

theorem btfeStep_dataOut (h : s.cur.btfe.phase = .dataOut) : btfeStep s = .next (s.withCur (dataOutStep s.cur)) := by
  rw [btfeStep, h]

theorem btfeStep_decode (h : s.cur.btfe.phase = .decode) :
    btfeStep s = .next (s.withCur (afterDecode (decodeInto s.cur.btfe.shape s.cur.btfe.enc
      (s.cur.btfe.dbuf.take s.cur.btfe.xlen.toNat) s.cur))) := by
  rw [btfeStep, h]
  rfl

theorem afterDecode_of_decode (ss : Session) (h : ss.btfe.phase = .decode) : afterDecode ss = enterHandshake ss :=
  if_pos h

/-- Whatever the answer, one step of CSW_IN is the handshake's (R140). -/
theorem btfeStep_cswIn (h : s.cur.btfe.phase = .cswIn) : btfeStep s = .next (s.withCur (cswInStep s.cur)) := by
  rw [btfeStep, h]
  simp only [statusStep]
  by_cases hshort : ∀ bytes rest, s.cur.port.inAns = .data bytes :: rest → bytes.length < 13
  · rw [arrivingCsw_eq_none _ hshort]
    exact exec_statusHandshake_cswIn s h
  · push Not at hshort
    obtain ⟨bytes, rest, hin, hlen⟩ := hshort
    rw [arrivingCsw_of_data _ bytes rest hin hlen]
    exact exec_arriving_csw s bytes rest hin hlen

theorem btfeStep_clearHalt (h : s.cur.btfe.phase = .clearHalt) :
    btfeStep s = .next (s.withCur (clearHaltStep s.cur)) := by
  rw [btfeStep, h]
  exact exec_statusHandshake_clearHalt s h

end

end Sys2Proof.Machine
end

section
/-! All a step of a BTFE session can do to its registers, and that each such move keeps the invariant (spec/10_state.md
R23 to R29, spec/60_exceptions.md R213 to R219). -/

namespace Sys2Proof.Machine

open Safety

/-- The moves of the registers in one step of the sequencer, `c` being TAGCTR: R25's table with what each move writes. -/
inductive BtfeMove (c : Word) (b : Btfe) : Btfe → Prop
  | stay (h : b.phase ≠ .tag ∧ b.phase ≠ .decode) : BtfeMove c b b
  | tagDrawn (h : b.phase = .tag) :
      BtfeMove c b
        { b with tag := c, cbwbuf := encodeCbw b.cfg.cbwSignature c b.xlen b.dir b.cmd, phase := .cbwOut }
  | wrapperSent (h : b.phase = .cbwOut) : BtfeMove c b { b with phase := if b.dir then .dataIn else .dataOut }
  | payloadRead (h : b.phase = .dataIn) (bytes : List Byte) (hlen : bytes.length = b.xlen.toNat) :
      BtfeMove c b { b with dbuf := bytes, phase := .decode }
  | payloadSent (h : b.phase = .dataOut) : BtfeMove c b { b with phase := .cswIn, rounds := 0 }
  | valueDecoded (h : b.phase = .decode) (v : List Nat) :
      BtfeMove c b { b with value := v, phase := .cswIn, rounds := 0 }
  | statusLatched (h : b.phase = .cswIn) (bytes : List Byte) (hlen : bytes.length = 13) :
      BtfeMove c b { latchFields (cswFields bytes) { b with cswbuf := bytes } with phase := .idle }
  | statusRejected (h : b.phase = .cswIn) (bytes : List Byte) (hlen : bytes.length = 13) :
      BtfeMove c b (recordProtocol (latchFields (cswFields bytes) { b with cswbuf := bytes }))
  | readStalled (h : b.phase = .cswIn) : BtfeMove c b { b with phase := .clearHalt }
  | haltCleared (h : b.phase = .clearHalt) : BtfeMove c b { b with phase := .cswIn, rounds := b.rounds + 1 }
  | callFailed (h : b.phase ∈ [.cbwOut, .dataIn, .dataOut, .cswIn, .clearHalt]) (k : ErrKind) :
      BtfeMove c b (recordTransport k b)
  | shortRead (h : b.phase ∈ [.dataIn, .decode, .cswIn]) : BtfeMove c b (recordProtocol b)

theorem afterDecode_decodeInto_move (c : Word) (ss : Session) (shape : List Nat) (enc : Enc) (buf : List Byte)
    (h : ss.btfe.phase = .decode) : BtfeMove c ss.btfe (afterDecode (decodeInto shape enc buf ss)).btfe := by
  unfold decodeInto
  split
  · next v _ =>
    rw [afterDecode_of_decode (ss.withBtfe { ss.btfe with value := v }) h]
    exact .valueDecoded h v
  · rw [afterDecode, if_neg (show (raiseProtocol ss).btfe.phase ≠ .decode from nofun)]
    exact .shortRead (by simp [h])

theorem sendCbw_move (c : Word) (ss : Session) (bytes : List Byte) (h : ss.btfe.phase = .cbwOut) :
    BtfeMove c ss.btfe (sendCbw bytes ss).btfe := by
  rcases sendCbw_cases ss bytes with heq | ⟨_, -, heq | ⟨k, heq⟩⟩ <;> rw [heq]
  · exact .stay (by simp [h])
  · exact .wrapperSent h
  · exact .callFailed (by simp [h]) k

theorem dataOutStep_move (c : Word) (ss : Session) (h : ss.btfe.phase = .dataOut) :
    BtfeMove c ss.btfe (dataOutStep ss).btfe := by
  rcases dataOutStep_cases ss with heq | ⟨_, -, heq | ⟨k, heq⟩⟩ <;> rw [heq]
  · exact .stay (by simp [h])
  · exact .payloadSent h
  · exact .callFailed (by simp [h]) k

theorem dataInStep_move (c : Word) (ss : Session) (h : ss.btfe.phase = .dataIn) :
    BtfeMove c ss.btfe (dataInStep ss).btfe := by
  rcases dataInStep_cases ss with heq | ⟨_, -, ⟨bytes, hlen, heq⟩ | heq | ⟨k, heq⟩⟩ <;> rw [heq]
  · exact .stay (by simp [h])
  · exact .payloadRead h bytes hlen
  · exact .shortRead (by simp [h])
  · exact .callFailed (by simp [h]) k

theorem cswInStep_move (c : Word) (ss : Session) (h : ss.btfe.phase = .cswIn) :
    BtfeMove c ss.btfe (cswInStep ss).btfe := by
  rcases cswInStep_cases ss with heq | ⟨_, -, ⟨bytes, hlen, heq | heq⟩ | heq | heq | ⟨k, heq⟩⟩ <;> rw [heq]
  · exact .stay (by simp [h])
  · exact .statusLatched h bytes hlen
  · exact .statusRejected h bytes hlen
  · exact .shortRead (by simp [h])
  · exact .readStalled h
  · exact .callFailed (by simp [h]) k

theorem clearHaltStep_move (c : Word) (ss : Session) (h : ss.btfe.phase = .clearHalt) :
    BtfeMove c ss.btfe (clearHaltStep ss).btfe := by
  rcases clearHaltStep_cases ss with heq | ⟨_, -, heq | ⟨k, heq⟩⟩ <;> rw [heq]
  · exact .stay (by simp [h])
  · exact .haltCleared h
  · exact .callFailed (by simp [h]) k

/-- A step of the sequencer makes one of the moves, and TAGCTR moves in the TAG step alone (R22, R25). -/
theorem btfeStep_move (s t : State) (h : btfeStep s = .next t) :
    BtfeMove s.tagctr s.cur.btfe t.cur.btfe ∧
      t.tagctr = if s.cur.btfe.phase = .tag then s.tagctr + 1 else s.tagctr := by
  cases hp : s.cur.btfe.phase
  case idle => rw [btfeStep_idle s hp] at h; cases h; exact ⟨.stay (by simp [hp]), rfl⟩
  case tag => rw [btfeStep_tag s hp] at h; cases h; exact ⟨.tagDrawn hp, rfl⟩
  case cbwOut =>
    simp only [btfeStep, hp, exec, execCbw] at h; cases h; exact ⟨sendCbw_move _ _ _ hp, rfl⟩
  case dataIn => rw [btfeStep_dataIn s hp] at h; cases h; exact ⟨dataInStep_move _ _ hp, rfl⟩
  case dataOut => rw [btfeStep_dataOut s hp] at h; cases h; exact ⟨dataOutStep_move _ _ hp, rfl⟩
  case decode =>
    rw [btfeStep_decode s hp] at h; cases h; exact ⟨afterDecode_decodeInto_move _ _ _ _ _ hp, rfl⟩
  case cswIn => rw [btfeStep_cswIn s hp] at h; cases h; exact ⟨cswInStep_move _ _ hp, rfl⟩
  case clearHalt => rw [btfeStep_clearHalt s hp] at h; cases h; exact ⟨clearHaltStep_move _ _ hp, rfl⟩

/-! ### What the moves leave alone -/

theorem BtfeMove.cfg_eq {c : Word} {b b' : Btfe} (h : BtfeMove c b b') : b'.cfg = b.cfg := by
  cases h <;> rfl

/-- No move clears FAULT (R27 b). -/
theorem BtfeMove.fault_stays {c : Word} {b b' : Btfe} (h : BtfeMove c b b') (hf : b.fault = true) : b'.fault = true := by
  cases h
  case statusRejected | shortRead => rfl
  all_goals exact hf

/-- The target of a move stands in the row of its source (R25). -/
theorem BtfeMove.phase_mem {c : Word} {b b' : Btfe} (h : BtfeMove c b b') : b'.phase ∈ phaseMoves b.phase := by
  cases h
  case stay h =>
    obtain ⟨htag, hdecode⟩ := h
    cases hp : b.phase
    case tag => exact absurd hp htag
    case decode => exact absurd hp hdecode
    all_goals simp [phaseMoves]
  case wrapperSent h => cases b.dir <;> simp [h, phaseMoves]
  case callFailed h k =>
    simp only [List.mem_cons, List.not_mem_nil, or_false] at h
    rcases h with h | h | h | h | h <;> simp [h, phaseMoves, recordTransport]
  case shortRead h =>
    simp only [List.mem_cons, List.not_mem_nil, or_false] at h
    rcases h with h | h | h <;> simp [h, phaseMoves, recordProtocol]
  case statusRejected h _ _ => simp [h, phaseMoves, recordProtocol]
  case tagDrawn h | payloadRead h _ _ | payloadSent h | valueDecoded h _ | statusLatched h _ _ | readStalled h |
      haltCleared h => simp [h, phaseMoves]

/-- Settles O42: each step is a move. -/
theorem phaseMovesOnlyAlongTheTable : Obligations.PhaseMovesOnlyAlongTheTable :=
  fun s t hstep => (btfeStep_move s t hstep).1.phase_mem

end Sys2Proof.Machine
end

section
/-! Each move of a BTFE session keeps the invariant (spec/60_exceptions.md R213 to R219). -/

namespace Sys2Proof.Safety

open Machine

section
variable {b : Btfe}

/-- Inside an operation PHASE may move where what the new phase asks for is there. -/
theorem BtfeInv.withPhase (h : BtfeInv b) (hrun : b.phase ≠ .idle) (p : Phase) (hin : p = .dataIn → b.dir = true)
    (hout : p = .dataOut → b.dir = false) (hdec : p = .decode → b.dir = true ∧ b.dbuf.length = b.xlen.toNat)
    (hcbw : p = .cbwOut → b.cbwbuf = encodeCbw b.cfg.cbwSignature b.tag b.xlen b.dir b.cmd) :
    BtfeInv { b with phase := p } :=
  { h with
    running := fun _ => h.running hrun
    reading := fun _ => h.reading hrun
    writing := fun _ => h.writing hrun
    dataIn := hin
    dataOut := hout
    decoding := hdec
    wrapper := hcbw }

/-- An engine in IDLE owes nothing to an operation. -/
theorem BtfeInv.toIdle (h : BtfeInv b) : BtfeInv { b with phase := .idle } :=
  { h with
    running := fun hne => absurd rfl hne
    reading := fun hne => absurd rfl hne
    writing := fun hne => absurd rfl hne
    dataIn := nofun
    dataOut := nofun
    decoding := nofun
    wrapper := nofun }

/-- The model's own working fields do not stand in the invariant (log 12). -/
theorem BtfeInv.withWork (h : BtfeInv b) (v : List Nat) (n : Nat) : BtfeInv { b with value := v, rounds := n } :=
  { h with }

theorem BtfeInv.withDbuf (h : BtfeInv b) (bytes : List Byte) (hlen : bytes.length = b.xlen.toNat) :
    BtfeInv { b with dbuf := bytes } :=
  { h with
    writing := fun _ _ => hlen
    decoding := fun hp => ⟨(h.decoding hp).1, hlen⟩ }

/-- The TAG step (R132). -/
theorem BtfeInv.drawTag (h : BtfeInv b) (hp : b.phase = .tag) (c : Word) :
    BtfeInv { b with tag := c, cbwbuf := encodeCbw b.cfg.cbwSignature c b.xlen b.dir b.cmd, phase := .cbwOut } :=
  have hrun : b.phase ≠ .idle := by simp [hp]
  { h with
    cbwBytes := by rw [length_encodeCbw, h.cmdBytes]; rfl
    running := fun _ => h.running hrun
    reading := fun _ => h.reading hrun
    writing := fun _ => h.writing hrun
    dataIn := nofun
    dataOut := nofun
    decoding := nofun
    wrapper := fun _ => rfl }

/-- A status wrapper is latched and the operation is over (R141, R162). -/
theorem BtfeInv.latch (h : BtfeInv b) (bytes : List Byte) (hlen : bytes.length = 13) :
    BtfeInv { latchFields (cswFields bytes) { b with cswbuf := bytes } with phase := .idle } :=
  { h.toIdle with
    cswBytes := hlen
    running := fun hne => absurd rfl hne
    latched := fun _ => rfl }

theorem errCode_range (k : ErrKind) : errCode k = 1 ∨ errCode k = 2 ∨ errCode k = 3 ∨ errCode k = 4 := by
  cases k <;> decide

/-- R213: the phases whose calls fail, by their codes. -/
theorem BtfeInv.failCall (h : BtfeInv b) (hp : b.phase ∈ [.cbwOut, .dataIn, .dataOut, .cswIn, .clearHalt])
    (k : ErrKind) : BtfeInv (recordTransport k b) := by
  have hrun : b.phase ≠ .idle := by rintro he; simp [he] at hp
  have hcode : phaseCode b.phase = 2 ∨ phaseCode b.phase = 3 ∨ phaseCode b.phase = 4 ∨ phaseCode b.phase = 6 ∨
      phaseCode b.phase = 7 := by
    simp only [List.mem_cons, List.not_mem_nil, or_false] at hp
    rcases hp with hp | hp | hp | hp | hp <;> rw [hp] <;> decide
  exact
    { h.toIdle with
      kind := .inr (.inl rfl)
      noError := nofun
      transport := fun _ => ⟨errCode_range k, hcode⟩
      protocol := nofun
      faulted := by simp [recordTransport, (h.running hrun).1]
      running := fun hne => absurd rfl hne }

/-- R214, R219: the phases that raise ProtocolError, by their codes. -/
theorem BtfeInv.failOperation (h : BtfeInv b) (hp : b.phase ∈ [.dataIn, .decode, .cswIn]) :
    BtfeInv (recordProtocol b) := by
  have hcode : phaseCode b.phase = 3 ∨ phaseCode b.phase = 5 ∨ phaseCode b.phase = 6 := by
    simp only [List.mem_cons, List.not_mem_nil, or_false] at hp
    rcases hp with hp | hp | hp <;> rw [hp] <;> decide
  exact
    { h.toIdle with
      kind := .inr (.inr rfl)
      noError := nofun
      transport := nofun
      protocol := fun _ => ⟨rfl, hcode⟩
      faulted := ⟨fun _ => rfl, fun _ => rfl⟩
      running := fun hne => absurd rfl hne }

/-- A wrapper that a check rejects: latched, then ProtocolError with phase 6 (R141, R213 row 13). -/
theorem BtfeInv.rejectStatus (h : BtfeInv b) (hp : b.phase = .cswIn) (bytes : List Byte) (hlen : bytes.length = 13) :
    BtfeInv (recordProtocol (latchFields (cswFields bytes) { b with cswbuf := bytes })) :=
  { h.failOperation (by simp [hp]) with
    cswBytes := hlen
    running := fun hne => absurd rfl hne
    latched := fun _ => rfl }

end

theorem BtfeInv.move {c : Word} {b b' : Btfe} (h : BtfeInv b) (hmove : BtfeMove c b b') : BtfeInv b' := by
  cases hmove
  case stay => exact h
  case tagDrawn hp => exact h.drawTag hp c
  case wrapperSent hp =>
    refine h.withPhase (by simp [hp]) _ ?_ ?_ ?_ ?_ <;> cases b.dir <;> simp
  case payloadRead hp bytes hlen =>
    exact (h.withDbuf bytes hlen).withPhase (by simp [hp]) .decode nofun nofun (fun _ => ⟨h.dataIn hp, hlen⟩) nofun
  case payloadSent hp => exact (h.withWork b.value 0).withPhase (by simp [hp]) .cswIn nofun nofun nofun nofun
  case valueDecoded hp v => exact (h.withWork v 0).withPhase (by simp [hp]) .cswIn nofun nofun nofun nofun
  case statusLatched hp bytes hlen => exact h.latch bytes hlen
  case statusRejected hp bytes hlen => exact h.rejectStatus hp bytes hlen
  case readStalled hp => exact h.withPhase (by simp [hp]) .clearHalt nofun nofun nofun nofun
  case haltCleared hp =>
    exact (h.withWork b.value (b.rounds + 1)).withPhase (by simp [hp]) .cswIn nofun nofun nofun nofun
  case callFailed hp k => exact h.failCall hp k
  case shortRead hp => exact h.failOperation hp

end Sys2Proof.Safety
end

section
/-! Requests: the operands acceptance sees, and all an ODPP request can do (spec/40_transport_ops.md R131,
spec/41_dither_pack.md R171 to R176). -/

namespace Sys2Proof.Machine

open Safety

/-! ### The operands of a request at the BTFE port -/

/-- What a request that is not ill-encoded gives to acceptance: 16 command bytes, for a read the length of its shape, for a
write a payload of the length announced (R100, R108, R131). -/
structure Operation.Sound (q : Operation) : Prop where
  cmd : q.ok = true → q.cmd.length = 16
  read : q.ok = true → q.dir = true → shapeSize q.shape = q.n
  write : q.ok = true → q.dir = false → ∃ bytes, q.payload = some bytes ∧ bytes.length = q.n

theorem cmdOk_iff {cmd : List Byte} : cmdOk cmd = true ↔ cmd.length = 16 := beq_iff_eq

theorem readOperation_sound (enc : Enc) (cmd : List Byte) (shape : List Nat) : (readOperation enc cmd shape).Sound where
  cmd hok := by
    simp only [readOperation, Bool.and_eq_true] at hok
    exact cmdOk_iff.mp hok.1
  read _ _ := rfl
  write _ := nofun

theorem writeOperation_sound (enc : Enc) (cmd : List Byte) (shape value : List Nat) (extra : List Byte) :
    (writeOperation enc cmd shape value extra).Sound where
  cmd hok := by
    simp only [writeOperation, Bool.and_eq_true, and_assoc] at hok
    exact cmdOk_iff.mp hok.1
  read _ := nofun
  write hok _ := by
    simp only [writeOperation, Bool.and_eq_true] at hok
    exact ⟨_, rfl, by rw [List.length_append, length_encodeValue _ _ _ hok.2]; rfl⟩

theorem illEncoded_sound : illEncoded.Sound := ⟨nofun, nofun, nofun⟩

/-- Whatever arrives at the BTFE port is the acceptance of sound operands (R108, R131). -/
theorem serveBtfe_eq_accept (q : BtfeRequest) (s : State) :
    ∃ o : Operation, o.Sound ∧ serveBtfe q s = .next (s.withCur (accept o s.cur)) := by
  simp only [serveBtfe, decode, decodeBtfe]
  split_ifs
  · exact ⟨_, illEncoded_sound, rfl⟩
  · exact ⟨_, readOperation_sound _ _ _, rfl⟩
  · exact ⟨_, writeOperation_sound _ _ _ _ _, rfl⟩
  · exact ⟨_, illEncoded_sound, rfl⟩
  · exact ⟨_, writeOperation_sound _ _ _ _ _, rfl⟩
  · exact ⟨_, illEncoded_sound, rfl⟩

/-- Neither a refusal nor an acceptance touches FAULT (R27 b). -/
theorem accept_fault (q : Operation) (ss : Session) : (accept q ss).btfe.fault = ss.btfe.fault := by
  rcases accept_cases q ss with ⟨r, h⟩ | ⟨h, -⟩ <;> rw [h] <;> rfl

/-! ### All an ODPP request can do -/

/-- The ODPP after a request `q`: as it was, with the table written, or with a frame accepted. -/
inductive OdppMove (q : OdppRequest) (o : Odpp) : Odpp → Prop
  | stay : OdppMove q o o
  | tableWritten (hdec : decode (.odpp q) = .ok .matrixInit) (hbusy : o.busy = false) (hready : o.matrixReady = false) :
      OdppMove q o { o with thresh := Memory.ofBytesFrom 0 (tableBytes o.cfg), matrixReady := true }
  | frameAccepted (w h : Word) (hdec : decode (.odpp q) = .ok (.ditherAndPack w h)) (hready : o.matrixReady = true)
      (hdims : dimensionsOk w h o.gray = true) : OdppMove q o (latchFrame w h o)

/-- The part of the state that is not the ODPP's (R170). -/
def State.SameOutsideOdpp (s t : State) : Prop := t.tagctr = s.tagctr ∧ t.cur = s.cur ∧ t.parked = s.parked

theorem serveOdpp_move (q : OdppRequest) (s t : State) (h : serveOdpp q s = .next t) :
    s.SameOutsideOdpp t ∧ OdppMove q s.odpp t.odpp := by
  unfold serveOdpp at h
  split at h
  next i hdec =>
    have hi : i = .matrixInit ∨ (∃ x y, i = .lookUp x y) ∨ (∃ w h, i = .ditherAndPack w h) ∨ i = .odppReserved := by
      simp only [decode, decodeOdpp] at hdec
      split_ifs at hdec <;> cases hdec <;> simp
    rcases hi with rfl | ⟨x, y, rfl⟩ | ⟨w, h', rfl⟩ | rfl
    · simp only [exec, execMatrixInit] at h
      split_ifs at h with hbusy hready <;> cases h
      · exact ⟨⟨rfl, rfl, rfl⟩, .stay⟩
      · exact ⟨⟨rfl, rfl, rfl⟩, .stay⟩
      · exact ⟨⟨rfl, rfl, rfl⟩, .tableWritten hdec (by simpa using hbusy) (by simpa using hready)⟩
    · simp only [exec, execLookUp] at h
      split_ifs at h
      · cases h; exact ⟨⟨rfl, rfl, rfl⟩, .stay⟩
      · split at h <;> cases h
        exact ⟨⟨rfl, rfl, rfl⟩, .stay⟩
    · simp only [exec, execDitherAndPack] at h
      split_ifs at h with hbusy hready hdims <;> cases h
      · exact ⟨⟨rfl, rfl, rfl⟩, .stay⟩
      · exact ⟨⟨rfl, rfl, rfl⟩, .stay⟩
      · exact ⟨⟨rfl, rfl, rfl⟩, .stay⟩
      · exact ⟨⟨rfl, rfl, rfl⟩, .frameAccepted w h' hdec (by simpa using hready) (by simpa using hdims)⟩
    · cases h
      exact ⟨⟨rfl, rfl, rfl⟩, .stay⟩
  next =>
    cases h
    exact ⟨⟨rfl, rfl, rfl⟩, .stay⟩

/-! ### A pixel -/

theorem advancePixel_more (s : State) (h : s.odpp.pix.toNat + 1 < pixels s.odpp) :
    advancePixel s = s.withOdpp { s.odpp with pix := s.odpp.pix + 1 } := if_pos h

theorem advancePixel_last (s : State) (h : ¬ s.odpp.pix.toNat + 1 < pixels s.odpp) :
    advancePixel s = (s.withOdpp { s.odpp with busy := false }).odppReply
      (.packed (Memory.bytes s.odpp.packed (pixels s.odpp / 8))) := if_neg h

/-- PIX does not wrap inside a frame (R33, R180). -/
theorem toNat_pix_succ (o : Odpp) (h : o.pix.toNat + 1 < pixels o) : (o.pix + 1).toNat = o.pix.toNat + 1 := by
  have hlt := pixels_lt o
  rw [BitVec.toNat_add]
  exact Nat.mod_eq_of_lt (by simp; omega)

end Sys2Proof.Machine
end

section
/-! All a step of the machine can do (spec/10_state.md R20, spec/42_boundary_host.md R197). -/

namespace Sys2Proof.Machine

open Safety

/-- How a step leads from `s` to `t`: a step of one of the blocks, or the outside event at the head of the list. -/
inductive StepEffect (s t : State) : Prop
  | btfe (h : btfeStep { s with inbox := s.inbox.tail } = .next t)
  | odpp (h : odppStep { s with inbox := s.inbox.tail } = .next t)
  | btfeRequest (q : BtfeRequest) (rest : List Input) (hin : s.inbox = .btfeRequest q :: rest) (o : Operation)
      (ho : o.Sound) (h : t = { s with inbox := rest, cur := accept o s.cur })
  | odppRequest (q : OdppRequest) (rest : List Input) (hin : s.inbox = .odppRequest q :: rest)
      (h : serveOdpp q { s with inbox := rest } = .next t)
  | nextSession (rest : List Input) (hin : s.inbox = .nextSession :: rest) (h : t = nextSession { s with inbox := rest })
  | globalReset (rest : List Input) (hin : s.inbox = .globalReset :: rest) (h : t = globalReset { s with inbox := rest })
  | sessionReset (rest : List Input) (hin : s.inbox = .sessionReset :: rest)
      (h : t = { s with inbox := rest, cur := resetSession s.cur })
  | loadGray (bytes : List Byte) (rest : List Input) (hin : s.inbox = .loadGray bytes :: rest) (hbusy : s.odpp.busy = false)
      (h : t = { s with inbox := rest, odpp := { s.odpp with gray := Memory.ofBytesFrom 0 bytes } })
  | btfeRead (r : BtfeReply) (rest : List Input) (h : t = { s with inbox := rest, cur := s.cur.reply r })
  | odppRead (r : OdppReply) (rest : List Input) (h : t = State.odppReply { s with inbox := rest } r)

theorem serve_effect (s t : State) (e : Input) (rest : List Input) (hin : s.inbox = e :: rest)
    (h : serve e { s with inbox := rest } = .next t) : StepEffect s t := by
  have htail : s.inbox.tail = rest := by rw [hin]; rfl
  cases e
  case btfeRequest q =>
    obtain ⟨o, ho, heq⟩ := serveBtfe_eq_accept q { s with inbox := rest }
    rw [serve, heq] at h
    cases h
    exact .btfeRequest q rest hin o ho rfl
  case odppRequest q => exact .odppRequest q rest hin h
  case btfeTurn => exact .btfe (htail ▸ h)
  case odppTurn => exact .odpp (htail ▸ h)
  case nextSession => cases h; exact .nextSession rest hin rfl
  case globalReset => cases h; exact .globalReset rest hin rfl
  case sessionReset => cases h; exact .sessionReset rest hin rfl
  case loadGray bytes =>
    simp only [serve, Machine.loadGray] at h
    split_ifs at h with hbusy
    cases h
    exact .loadGray bytes rest hin (by simpa using hbusy) rfl
  case readCsw =>
    simp only [serve, Machine.readCsw] at h
    split_ifs at h <;> cases h <;> exact .btfeRead _ rest rfl
  case readErr => cases h; exact .btfeRead _ rest rfl
  case readPacked a =>
    simp only [serve, Machine.readPacked] at h
    split_ifs at h
    split at h <;> cases h
    exact .odppRead _ rest rfl

theorem step_effect (s t : State) (h : step s = .next t) : StepEffect s t := by
  unfold step stepMachine at h
  split at h
  next hin =>
    have hnil : s.inbox.tail = s.inbox := by rw [hin]; rfl
    have htail : { s with inbox := s.inbox.tail } = s := by rw [hnil]
    unfold goOn at h
    split_ifs at h
    · exact .odpp (htail.symm ▸ h)
    · exact .btfe (htail.symm ▸ h)
  next e rest hin => exact serve_effect s t e rest hin h

end Sys2Proof.Machine
end

section
/-! The invariant holds at reset and is kept by every step (spec/10_state.md R23 to R35, spec/70_reset_and_hazards.md R240). -/

namespace Sys2Proof.Safety

open Machine

/-! ### The BTFE: acceptance and the resets -/

theorem BtfeInv.reset (c : BtfeConfig) : BtfeInv (Btfe.reset c) where
  cmdBytes := rfl
  cbwBytes := rfl
  cswBytes := rfl
  kind := .inl rfl
  noError _ := ⟨rfl, rfl⟩
  transport := nofun
  protocol := nofun
  faulted := ⟨nofun, nofun⟩
  running hne := absurd rfl hne
  reading hne := absurd rfl hne
  writing hne := absurd rfl hne
  dataIn := nofun
  dataOut := nofun
  decoding := nofun
  wrapper := nofun
  latched := nofun

/-- The error register and CSW_VALID cleared, in a phase that owes nothing to an operation's data (R131, R240 b). -/
theorem BtfeInv.resetSession {b : Btfe} (h : BtfeInv b) :
    BtfeInv { clearStatus b with phase := .idle, fault := false } :=
  { h.toIdle with
    kind := .inl rfl
    noError := fun _ => ⟨rfl, rfl⟩
    transport := nofun
    protocol := nofun
    faulted := ⟨nofun, nofun⟩
    running := fun hne => absurd rfl hne
    latched := nofun }

/-- An accepted request (R131). -/
theorem BtfeInv.latchOperation {b : Btfe} (h : BtfeInv b) (hfault : b.fault = false) (q : Operation) (hq : q.Sound)
    (hok : q.ok = true) (hn : q.n < 2 ^ 32) : BtfeInv (latchOperation q b) :=
  have hxlen : (BitVec.ofNat 32 q.n).toNat = q.n := Nat.mod_eq_of_lt hn
  { cmdBytes := hq.cmd hok
    cbwBytes := h.cbwBytes
    cswBytes := h.cswBytes
    kind := .inl rfl
    noError := fun _ => ⟨rfl, rfl⟩
    transport := nofun
    protocol := nofun
    faulted := by simp [Machine.latchOperation, clearStatus, hfault]
    running := fun _ => ⟨hfault, rfl, rfl⟩
    reading := fun _ hdir => (hq.read hok hdir).trans hxlen.symm
    writing := fun _ hdir => by
      obtain ⟨bytes, hbytes, hlen⟩ := hq.write hok hdir
      simp only [Machine.latchOperation, hbytes, Option.getD_some, hlen, hxlen]
    dataIn := nofun
    dataOut := nofun
    decoding := nofun
    wrapper := nofun
    latched := nofun }

theorem BtfeInv.accept {ss : Session} (h : BtfeInv ss.btfe) (q : Operation) (hq : q.Sound) :
    BtfeInv (accept q ss).btfe := by
  rcases accept_cases q ss with ⟨r, heq⟩ | ⟨heq, -, hfault, hok, hn⟩ <;> rw [heq]
  · exact h
  · exact h.latchOperation hfault q hq hok hn

/-! ### The ODPP -/

section
variable {o : Odpp}

theorem OdppInv.writeTable (h : OdppInv o) (hbusy : o.busy = false) :
    OdppInv { o with thresh := Memory.ofBytesFrom 0 (tableBytes o.cfg), matrixReady := true } :=
  { h with
    threshWf := Memory.ofBytesFrom_wf _ _
    table := fun _ => rfl
    rom := fun _ => rfl
    running := fun hrun => absurd (hbusy.symm.trans hrun) nofun }

theorem dimensionsOk_iff (w h : Word) (gray : Memory) :
    dimensionsOk w h gray = true ↔ w.toNat ≠ 0 ∧ h.toNat ≠ 0 ∧ w.toNat * h.toNat % 8 = 0 ∧
      Memory.holdsFrame gray (w.toNat * h.toNat) = true := by
  simp [dimensionsOk, and_assoc]

theorem OdppInv.acceptFrame (h : OdppInv o) (hready : o.matrixReady = true) (width height : Word)
    (hdims : dimensionsOk width height o.gray = true) : OdppInv (latchFrame width height o) := by
  obtain ⟨hw, hh, hmod, hframe⟩ := (dimensionsOk_iff _ _ _).mp hdims
  exact
    { h with
      packedWf := Memory.below_wf _ _ h.packedWf
      running := fun _ => ⟨hready, hw, hh, hmod, Nat.mul_pos (Nat.pos_of_ne_zero hw) (Nat.pos_of_ne_zero hh), hframe⟩ }

theorem OdppInv.request (h : OdppInv o) {o' : Odpp} (q : OdppRequest) (hmove : OdppMove q o o') : OdppInv o' := by
  cases hmove
  case stay => exact h
  case tableWritten _ hbusy _ => exact h.writeTable hbusy
  case frameAccepted w' h' _ hready hdims => exact h.acceptFrame hready w' h' hdims

theorem OdppInv.putPixel (h : OdppInv o) (p : Nat) (white : Bool) : OdppInv (putPixel o p white) :=
  { h with packedWf := Memory.setBit_wf _ _ _ _ h.packedWf }

theorem OdppInv.advance {s : State} (h : OdppInv s.odpp) : OdppInv (advancePixel s).odpp := by
  by_cases hmore : s.odpp.pix.toNat + 1 < pixels s.odpp
  · rw [advancePixel_more s hmore]
    refine { h with running := fun hbusy => ?_ }
    obtain ⟨hready, hw, hh, hmod, -, hframe⟩ := h.running hbusy
    exact ⟨hready, hw, hh, hmod, (toNat_pix_succ _ hmore).trans_lt hmore, hframe⟩
  · rw [advancePixel_last s hmore]
    exact { h with running := nofun }

theorem OdppInv.resetOdpp (h : OdppInv o) : OdppInv (resetOdpp o) where
  threshWf := by
    unfold Machine.resetOdpp
    cases o.cfg.rom
    · exact List.Pairwise.nil
    · exact Memory.ofBytesFrom_wf _ _
  grayWf := h.grayWf
  packedWf := h.packedWf
  table hready := if_pos hready
  rom hrom := hrom
  running := nofun

theorem OdppInv.loadGray (h : OdppInv o) (hbusy : o.busy = false) (bytes : List Byte) :
    OdppInv { o with gray := Memory.ofBytesFrom 0 bytes } :=
  { h with
    grayWf := Memory.ofBytesFrom_wf _ _
    running := fun hrun => absurd (hbusy.symm.trans hrun) nofun }

end

theorem OdppInv.step {s t : State} (h : OdppInv s.odpp) (hstep : odppStep s = .next t) : OdppInv t.odpp := by
  rcases odppStep_cases s t hstep with ⟨-, rfl⟩ | ⟨sample, thr, -, -, -, rfl⟩
  · exact h
  · exact OdppInv.advance (h.putPixel _ _)

/-! ### The machine -/

/-- The invariant asks the same of the session that may move and of the others (R230). -/
theorem stateInv_iff (s : State) :
    StateInv s ↔ (∀ p ∈ s.cur :: s.parked, BtfeInv p.btfe) ∧ OdppInv s.odpp := by
  simp only [List.forall_mem_cons]
  exact ⟨fun h => ⟨⟨h.cur, h.parked⟩, h.odpp⟩, fun h => ⟨h.1.1, h.1.2, h.2⟩⟩

/-- Settles O2: the reset state of a session, and an ODPP with nothing in its memories. -/
theorem resetMeetsTheInvariant : Obligations.ResetMeetsTheInvariant := by
  refine ⟨BtfeInv.reset btfeDefault, List.forall_mem_nil _, ?_⟩
  constructor
  case threshWf | grayWf | packedWf => exact List.Pairwise.nil
  case table | rom | running => exact nofun

/-- Settles O3: each effect a step can have keeps the part of the invariant it touches. -/
theorem stepKeepsTheInvariant : Obligations.StepKeepsTheInvariant := by
  intro s t hinv hstep
  obtain ⟨hcur, hparked, hodpp⟩ := hinv
  cases step_effect s t hstep
  case btfe h =>
    obtain ⟨hpark, hod, -, -⟩ := btfeStep_frame _ t h
    exact ⟨hcur.move (btfeStep_move _ t h).1, hpark ▸ hparked, hod ▸ hodpp⟩
  case odpp h =>
    obtain ⟨-, hc, hpark, -⟩ := odppStep_frame _ t h
    exact ⟨hc ▸ hcur, hpark ▸ hparked, OdppInv.step (s := { s with inbox := s.inbox.tail }) hodpp h⟩
  case btfeRequest q rest hin o ho h =>
    subst h
    exact ⟨BtfeInv.accept hcur o ho, hparked, hodpp⟩
  case odppRequest q rest hin h =>
    obtain ⟨⟨-, hc, hpark⟩, hmove⟩ := serveOdpp_move q _ t h
    exact ⟨hc ▸ hcur, hpark ▸ hparked, hodpp.request q hmove⟩
  case nextSession rest hin h =>
    subst h
    obtain ⟨-, hod, hperm⟩ := nextSession_frame { s with inbox := rest }
    refine (stateInv_iff _).mpr ⟨fun p hp => ?_, by rw [hod]; exact hodpp⟩
    rcases List.mem_cons.mp (hperm.mem_iff.mp hp) with rfl | hp
    · exact hcur
    · exact hparked p hp
  case globalReset rest hin h =>
    subst h
    refine ⟨BtfeInv.reset _, fun p hp => ?_, hodpp.resetOdpp⟩
    obtain ⟨p', -, rfl⟩ := List.mem_map.mp hp
    exact BtfeInv.reset _
  case sessionReset rest hin h =>
    subst h
    exact ⟨hcur.resetSession, hparked, hodpp⟩
  case loadGray bytes rest hin hbusy h =>
    subst h
    exact ⟨hcur, hparked, hodpp.loadGray hbusy bytes⟩
  case btfeRead r rest h =>
    subst h
    exact ⟨hcur, hparked, hodpp⟩
  case odppRead r rest h =>
    subst h
    exact ⟨hcur, hparked, hodpp⟩

end Sys2Proof.Safety
end

section
/-! Who may change what in one step of the machine (spec/20_memory.md R64 to R66, spec/10_state.md R22, R27, R30). -/

namespace Sys2Proof.Machine

open Safety

/-! ### The memories of the ODPP -/

/-- A step of the ODPP that changes PACKED is a step of a busy one (R75). -/
theorem odppStep_packed (s t : State) (h : odppStep s = .next t) :
    t.odpp.packed = s.odpp.packed ∨ s.odpp.busy = true := by
  rcases odppStep_cases s t h with ⟨-, rfl⟩ | ⟨_, _, hbusy, -⟩
  · exact .inl rfl
  · exact .inr hbusy

/-- Settles O4: the effects a step can have, memory by memory. -/
theorem memoriesAreWrittenOnlyByTheirOwners : Obligations.MemoriesAreWrittenOnlyByTheirOwners := by
  intro s t hstep
  cases step_effect s t hstep
  case btfe h =>
    obtain ⟨-, hodpp, -, -⟩ := btfeStep_frame _ t h
    rw [hodpp]
    exact ⟨.inl rfl, .inl rfl, .inl rfl⟩
  case odpp h =>
    obtain ⟨-, -, -, -, hthresh, hgray, -⟩ := odppStep_frame _ t h
    exact ⟨.inl hgray, .inl hthresh, (odppStep_packed _ t h).imp id .inl⟩
  case odppRequest q rest hin h =>
    obtain ⟨-, hmove⟩ := serveOdpp_move q _ t h
    generalize t.odpp = o at hmove
    cases hmove
    case stay => exact ⟨.inl rfl, .inl rfl, .inl rfl⟩
    case tableWritten hdec _ hready => exact ⟨.inl rfl, .inr (.inl ⟨hready, q, rest, hin, hdec⟩), .inl rfl⟩
    case frameAccepted w h' hdec _ _ => exact ⟨.inl rfl, .inl rfl, .inr (.inr ⟨q, rest, w, h', hin, hdec⟩)⟩
  case nextSession rest hin h =>
    obtain ⟨-, hodpp, -⟩ := nextSession_frame { s with inbox := rest }
    rw [h, hodpp]
    exact ⟨.inl rfl, .inl rfl, .inl rfl⟩
  case globalReset rest hin h => subst h; exact ⟨.inl rfl, .inr (.inr ⟨rest, hin⟩), .inl rfl⟩
  case loadGray bytes rest hin _ h => subst h; exact ⟨.inr ⟨bytes, rest, hin⟩, .inl rfl, .inl rfl⟩
  case btfeRequest h | sessionReset h | btfeRead h | odppRead h => subst h; exact ⟨.inl rfl, .inl rfl, .inl rfl⟩

/-! ### The tag counter -/

/-- Settles O24: the TAG step and global reset are the effects that touch TAGCTR. -/
theorem tagCounterMovesOnlyByFetchTag : Obligations.TagCounterMovesOnlyByFetchTag := by
  intro s t hstep
  cases step_effect s t hstep
  case btfe h =>
    have htag := (btfeStep_move _ t h).2
    split_ifs at htag with hp
    · exact .inr (.inl ⟨hp, htag⟩)
    · exact .inl htag
  case odpp h => exact .inl (odppStep_frame _ t h).1
  case odppRequest q rest hin h => exact .inl (serveOdpp_move q _ t h).1.1
  case nextSession rest hin h => exact .inl (h ▸ (nextSession_frame { s with inbox := rest }).1)
  case globalReset rest hin h => subst h; exact .inr (.inr ⟨⟨rest, hin⟩, rfl⟩)
  case btfeRequest h | sessionReset h | loadGray h | btfeRead h | odppRead h => subst h; exact .inl rfl

/-! ### FAULT -/

theorem serve_btfeRequest_faulted (q : BtfeRequest) (s : State) (hfault : s.cur.btfe.fault = true)
    (hidle : s.cur.btfe.phase = .idle) : serveBtfe q s = .next (s.withCur (refuse s.cur .faulted)) := by
  obtain ⟨o, -, heq⟩ := serveBtfe_eq_accept q s
  rw [heq, accept_faulted o s.cur hidle hfault]

/-- Settles O44: no move and no acceptance clears FAULT, and the events that do are excluded. -/
theorem faultStaysUntilReset : Obligations.FaultStaysUntilReset := by
  refine ⟨fun s t hstep hfault hevents => ?_, fun s q rest hin hfault hidle => ?_⟩
  · cases step_effect s t hstep
    case btfe h => exact (btfeStep_move _ t h).1.fault_stays hfault
    case odpp h =>
      obtain ⟨-, hcur, -⟩ := odppStep_frame _ t h
      exact hcur ▸ hfault
    case btfeRequest q rest hin o ho h =>
      subst h
      exact (accept_fault o s.cur).trans hfault
    case odppRequest q rest hin h =>
      obtain ⟨⟨-, hcur, -⟩, -⟩ := serveOdpp_move q _ t h
      exact hcur ▸ hfault
    case nextSession rest hin h | globalReset rest hin h | sessionReset rest hin h => exact absurd (hevents _ rest hin) nofun
    case loadGray h | btfeRead h | odppRead h => subst h; exact hfault
  · rw [step, stepMachine, hin]
    exact serve_btfeRequest_faulted q { s with inbox := rest } hfault hidle

/-! ### The configurations -/

/-- The configurations of all sessions, the one that may move first. -/
def State.configs (s : State) : List BtfeConfig := (s.cur :: s.parked).map fun p => p.btfe.cfg

theorem configs_eq {s t : State} (hcur : t.cur.btfe.cfg = s.cur.btfe.cfg) (hparked : t.parked = s.parked) :
    t.configs = s.configs := by
  simp only [State.configs, List.map_cons, hcur, hparked]

theorem OdppMove.cfg_eq {q : OdppRequest} {o o' : Odpp} (h : OdppMove q o o') : o'.cfg = o.cfg := by
  cases h <;> rfl

/-- Settles O46: only a hand-over of the turn moves a configuration, and it moves it whole. -/
theorem configurationNeverChanges : Obligations.ConfigurationNeverChanges := by
  intro s t hstep
  suffices h : t.odpp.cfg = s.odpp.cfg ∧ t.configs.Perm s.configs from h
  cases step_effect s t hstep
  case btfe h =>
    obtain ⟨hparked, hodpp, -, -⟩ := btfeStep_frame _ t h
    exact ⟨congrArg Odpp.cfg hodpp, .of_eq (configs_eq (btfeStep_move _ t h).1.cfg_eq hparked)⟩
  case odpp h =>
    obtain ⟨-, hcur, hparked, -, -, -, hcfg⟩ := odppStep_frame _ t h
    exact ⟨hcfg, .of_eq (configs_eq (congrArg (·.btfe.cfg) hcur) hparked)⟩
  case btfeRequest q rest hin o ho h =>
    subst h
    exact ⟨rfl, .of_eq (configs_eq (accept_cfg o s.cur) rfl)⟩
  case odppRequest q rest hin h =>
    obtain ⟨⟨-, hcur, hparked⟩, hmove⟩ := serveOdpp_move q _ t h
    exact ⟨hmove.cfg_eq, .of_eq (configs_eq (congrArg (·.btfe.cfg) hcur) hparked)⟩
  case nextSession rest hin h =>
    obtain ⟨-, hodpp, hperm⟩ := nextSession_frame { s with inbox := rest }
    rw [h, hodpp]
    exact ⟨rfl, hperm.map _⟩
  case globalReset rest hin h =>
    subst h
    refine ⟨rfl, .of_eq ?_⟩
    simp [State.configs, Machine.globalReset, resetInstance, Btfe.reset]
  case sessionReset h | loadGray h | btfeRead h | odppRead h => subst h; exact ⟨rfl, .refl _⟩

end Sys2Proof.Machine
end

section
/-! Typed values: encoding and decoding undo each other (spec/40_transport_ops.md R133 to R135). -/

namespace Sys2Proof.Machine

theorem decodeFields_encodeValue (shape : List Nat) (enc : Enc) (value : List Nat) (h : valueFits shape value = true) :
    decodeFields shape enc (encodeValue shape enc value) = value := by
  induction shape generalizing value with
  | nil =>
    cases value with
    | nil => rfl
    | cons => simp [valueFits] at h
  | cons w ws ih =>
    cases value with
    | nil => simp [valueFits] at h
    | cons v vs =>
      simp only [valueFits, Bool.and_eq_true, decide_eq_true_eq] at h
      obtain ⟨hv, hvs⟩ := h
      rw [encodeValue, decodeFields, List.take_left' (length_encodeField enc w v),
        List.drop_left' (length_encodeField enc w v), decodeField_encodeField enc w v hv, ih vs hvs]

/-- The fields of a buffer of the shape's size fit the shape, and their encoding is the buffer. -/
theorem encodeValue_decodeFields (shape : List Nat) (enc : Enc) (buf : List Byte) (h : buf.length = shapeSize shape) :
    valueFits shape (decodeFields shape enc buf) = true ∧ encodeValue shape enc (decodeFields shape enc buf) = buf := by
  induction shape generalizing buf with
  | nil => exact ⟨rfl, (List.length_eq_zero_iff.mp h).symm⟩
  | cons w ws ih =>
    rw [show shapeSize (w :: ws) = w + shapeSize ws from rfl] at h
    have hfield : (buf.take w).length = w := by rw [List.length_take]; omega
    obtain ⟨hfits, hbytes⟩ := ih (buf.drop w) (by rw [List.length_drop]; omega)
    have hlt := decodeField_lt enc (buf.take w)
    have hback := encodeField_decodeField enc (buf.take w)
    rw [hfield] at hlt hback
    refine ⟨?_, ?_⟩
    · rw [decodeFields, valueFits, hfits, decide_eq_true hlt]
      rfl
    · rw [decodeFields, encodeValue, hback, hbytes, List.take_append_drop]

theorem decodeValue_of_length (shape : List Nat) (enc : Enc) (buf : List Byte) (h : buf.length = shapeSize shape) :
    decodeValue shape enc buf = some (decodeFields shape enc buf) := if_pos h

/-- Settles O13: the two round trips, field by field. -/
theorem typedValueRoundTrip : Obligations.TypedValueRoundTrip := by
  refine ⟨fun shape enc value h => ?_, fun shape enc buf h => ?_⟩
  · rw [decodeValue_of_length _ _ _ (length_encodeValue shape enc value h), decodeFields_encodeValue shape enc value h]
  · exact ⟨_, decodeValue_of_length shape enc buf h, encodeValue_decodeFields shape enc buf h⟩

/-! ### The two actions on typed values -/

theorem decodeInto_of_length (shape : List Nat) (enc : Enc) (buf : List Byte) (ss : Session)
    (h : buf.length = shapeSize shape) :
    decodeInto shape enc buf ss = ss.withBtfe { ss.btfe with value := decodeFields shape enc buf } := by
  rw [decodeInto, decodeValue_of_length shape enc buf h]

theorem decodeInto_of_length_ne (shape : List Nat) (enc : Enc) (buf : List Byte) (ss : Session)
    (h : buf.length ≠ shapeSize shape) : decodeInto shape enc buf ss = raiseProtocol ss := by
  rw [decodeInto, decodeValue, if_neg h]

/-- ProtocolError, register by register (R219). -/
theorem raiseProtocol_eq (ss : Session) :
    raiseProtocol ss =
      { btfe :=
          { ss.btfe with
            fault := true, errKind := 2, errSub := 0, errPhase := phaseCode ss.btfe.phase, phase := .idle }
        port := { ss.port with replies := ss.port.replies ++ [.protocolError] } } := rfl

/-- TransportError, register by register (R218). -/
theorem raiseTransport_eq (ss : Session) (k : ErrKind) :
    raiseTransport ss k =
      { btfe :=
          { ss.btfe with errKind := 1, errSub := errCode k, errPhase := phaseCode ss.btfe.phase, phase := .idle }
        port := { ss.port with replies := ss.port.replies ++ [.transportError k] } } := rfl

/-- Settles O29: the two branches of DECODE_VALUE. -/
theorem decodeValueOrProtocolError : Obligations.DecodeValueOrProtocolError := by
  refine ⟨fun s shape enc buf h => ?_, fun s shape enc buf hphase h => ?_⟩
  · refine ⟨_, decodeValue_of_length shape enc buf h, (encodeValue_decodeFields shape enc buf h).1, ?_⟩
    rw [exec, execDecodeValue, decodeInto_of_length _ _ _ _ h]
  · rw [exec, execDecodeValue, decodeInto_of_length_ne _ _ _ _ h, raiseProtocol_eq, hphase]
    rfl

/-- In DECODE a buffer of the shape's size leads to the handshake, with the value held (R150). -/
theorem btfeStep_decode_of_length (s : State) (hphase : s.cur.btfe.phase = .decode)
    (hbuf : s.cur.btfe.dbuf.length = s.cur.btfe.xlen.toNat) (hshape : s.cur.btfe.dbuf.length = shapeSize s.cur.btfe.shape) :
    btfeStep s = .next (s.withCur (s.cur.withBtfe
      { s.cur.btfe with
        value := decodeFields s.cur.btfe.shape s.cur.btfe.enc s.cur.btfe.dbuf, phase := .cswIn, rounds := 0 })) := by
  rw [btfeStep_decode s hphase, List.take_of_length_le hbuf.le, decodeInto_of_length _ _ _ _ hshape,
    afterDecode_of_decode]
  · rfl
  · exact hphase

/-- Settles O30: the invariant says that DBUF has the shape's size in DECODE. -/
theorem decodeStepDoesNotFail : Obligations.DecodeStepDoesNotFail := by
  intro s hinv hphase
  obtain ⟨hdir, hbuf⟩ := hinv.decoding hphase
  have hshape : s.cur.btfe.dbuf.length = shapeSize s.cur.btfe.shape :=
    hbuf.trans (hinv.reading (by simp [hphase]) hdir).symm
  exact ⟨_, decodeValue_of_length _ _ _ hshape, btfeStep_decode_of_length s hphase hbuf hshape⟩

/-- Settles O31: the two branches of ENCODE_VALUE. -/
theorem encodeValueFillsTheBuffer : Obligations.EncodeValueFillsTheBuffer := by
  refine ⟨fun s shape enc value hshape hfits => ?_, fun s shape enc value h => ?_⟩
  · refine ⟨encodeValue shape enc value, ?_, length_encodeValue shape enc value hfits,
      typedValueRoundTrip.1 shape enc value hfits⟩
    rw [exec, execEncodeValue, encodeInto, if_pos (by rw [hshape, hfits]; rfl)]
  · have hbad : ¬ (shapeOk shape && valueFits shape value) = true := by
      rcases h with h | h <;> simp [h]
    rw [exec, execEncodeValue, encodeInto, if_neg hbad]
    rfl

end Sys2Proof.Machine
end

section
/-! Acceptance and refusal of each request at the BTFE port (spec/40_transport_ops.md R131, R158, spec/60_exceptions.md R217,
R221). -/

namespace Sys2Proof.Machine

open Safety

/-- Settles O17: each request accepts its operands, and what acceptance latches is read off. -/
theorem requestIsAccepted : Obligations.RequestIsAccepted := by
  refine ⟨?_, ?_, ?_⟩
  · intro s enc cmd shape hidle hfault hcmd hshape hlen
    have hok : (readOperation enc cmd shape).ok = true := by simp [readOperation, cmdOk_iff.mpr hcmd, hshape]
    rw [exec, execReadCommand, accept_ok _ _ hidle hfault hok hlen]
    rfl
  · intro s enc cmd shape value extra hidle hfault hcmd hshape hfits hlen
    have hok : (writeOperation enc cmd shape value extra).ok = true := by
      simp [writeOperation, cmdOk_iff.mpr hcmd, hshape, hfits]
    rw [exec, execWriteCommand, accept_ok _ _ hidle hfault hok hlen]
    rfl
  · intro s cmd data hidle hfault hcmd hlen
    rw [exec_writeCommandRaw_accepted s cmd data hidle hfault hcmd hlen]
    rfl

/-- Settles O18: the refusals of acceptance in their order. -/
theorem requestIsRefused : Obligations.RequestIsRefused := by
  intro s i n hi
  obtain ⟨q, hexec, hn, hok⟩ := exec_request i n s s.cur.btfe.cfg.cbwSignature hi
  rw [hexec, ← hok, ← hn]
  refine ⟨fun hbusy => ?_, fun hidle hfault => ?_, fun hidle hfault hbad => ?_, fun hidle hfault hgood hlong => ?_⟩
  · rw [accept_busy q s.cur hbusy, refuse]
  · rw [accept_faulted q s.cur hidle hfault, refuse]
  · rw [accept_badEncoding q s.cur hidle hfault hbad, refuse]
  · rw [accept_lengthOverflow q s.cur hidle hfault hgood hlong, refuse]

/-- Settles O19: the reserved code has no operands that acceptance takes. -/
theorem reservedBtfeCodeIsRefused : Obligations.ReservedBtfeCodeIsRefused := by
  intro s e
  rw [exec, execBtfeReserved]
  refine ⟨fun hidle hfault => ?_, fun hidle hfault => ?_, fun hbusy => ?_⟩
  · rw [accept_badEncoding illEncoded s.cur hidle hfault rfl, refuse]
  · rw [accept_faulted illEncoded s.cur hidle hfault, refuse]
  · rw [accept_busy illEncoded s.cur hbusy, refuse]

/-- Settles O21: a raw write that leaves IDLE was accepted, and the same checks pass for the empty shape in any order. -/
theorem orderOfEmptyShapeDoesNotMatter : Obligations.OrderOfEmptyShapeDoesNotMatter := by
  intro s t cmd data enc hexec htag hidle
  simp only [exec, execWriteCommandRaw, execWriteCommand, writeOperation_emptyShape] at hexec ⊢
  cases hexec
  rcases accept_cases ⟨cmdOk cmd, false, cmd, data.length, some data, [], .be⟩ s.cur with
    ⟨r, heq⟩ | ⟨heq, -, hfault, hok, hlen⟩
  · rw [State.withCur_cur, heq, refuse_btfe, hidle] at htag
    cases htag
  · rw [heq, accept_ok ⟨cmdOk cmd, false, cmd, data.length, some data, [], enc⟩ s.cur hidle hfault hok hlen]
    rfl

/-- Settles O45: a failed call ends in IDLE with FAULT as it was, where every request that fits is accepted. -/
theorem transportErrorLeavesTheEngineUsable : Obligations.TransportErrorLeavesTheEngineUsable := by
  intro s k hfault hfails
  obtain ⟨t, hstep, hbtfe, hreplies⟩ := btfeStep_failsWith s k hfails
  have hidle : t.btfe.phase = .idle := by rw [hbtfe]; rfl
  have hclear : t.btfe.fault = false := by rw [hbtfe]; exact hfault
  refine ⟨_, hstep, hidle, ?_, ?_, ?_, rfl, hclear, hreplies, fun i n hi hwf hn => ?_⟩
  · rw [State.withCur_cur, hbtfe]; rfl
  · rw [State.withCur_cur, hbtfe]; rfl
  · rw [State.withCur_cur, hbtfe]; rfl
  · obtain ⟨q, hexec, rfl, hok⟩ := exec_request i n (s.withCur t) t.btfe.cfg.cbwSignature hi
    rw [hexec, State.withCur_cur, accept_ok q t hidle hclear (hok.trans hwf) hn]
    exact ⟨_, rfl, rfl, Nat.mod_eq_of_lt hn, rfl, rfl, rfl, rfl⟩

end Sys2Proof.Machine
end

section
/-! The tags drawn by all sessions together (spec/40_transport_ops.md R130, spec/60_exceptions.md R230). -/

namespace Sys2Proof.Machine

open Safety

/-- Settles O22: TAGCTR + 1 modulo 2^32, by the meaning of addition on words. -/
theorem fetchTagReadsAndAdvances : Obligations.FetchTagReadsAndAdvances := by
  intro s
  have hsucc : BitVec.ofNat 32 (s.tagctr.toNat + 1) = s.tagctr + 1 := by
    apply BitVec.eq_of_toNat_eq
    simp
  rw [hsucc]
  rfl

theorem tagctr_repeat_nextSession (k : Nat) (s : State) : (Nat.repeat nextSession k s).tagctr = s.tagctr := by
  induction k with
  | zero => rfl
  | succ k ih => exact (nextSession_frame _).1.trans ih

theorem drawTags_cons (k : Nat) (ks : List Nat) (s : State) :
    ∃ t : State, t.tagctr = s.tagctr + 1 ∧ drawTags (k :: ks) s = s.tagctr :: drawTags ks t := by
  rw [drawTags, ← tagctr_repeat_nextSession k s]
  exact ⟨_, rfl, rfl⟩

/-- The tags are the counter's values one after another. -/
theorem drawTags_eq_map_range (ks : List Nat) (s : State) :
    drawTags ks s = (List.range ks.length).map fun i => s.tagctr + BitVec.ofNat 32 i := by
  induction ks generalizing s with
  | nil => rfl
  | cons k ks ih =>
    obtain ⟨t, ht, hdraw⟩ := drawTags_cons k ks s
    rw [hdraw, ih t, ht, List.length_cons, List.range_succ_eq_map, List.map_cons, List.map_map]
    congr 1
    · simp
    · refine List.map_congr_left fun i _ => ?_
      simp [BitVec.ofNat_add, BitVec.add_assoc, BitVec.add_comm 1#32]

/-- Settles O23: the counter's values, which differ while fewer than 2^32 are drawn. -/
theorem tagsDoNotRepeat : Obligations.TagsDoNotRepeat := by
  intro ks s
  rw [drawTags_eq_map_range]
  refine ⟨by simp, fun i hi => by simp [hi], fun hlen => ?_⟩
  refine List.Nodup.map_on (fun i hi j hj heq => ?_) List.nodup_range
  have hnat := congrArg BitVec.toNat ((BitVec.add_right_inj _).mp heq)
  rw [List.mem_range] at hi hj
  simp only [BitVec.toNat_ofNat] at hnat
  omega

end Sys2Proof.Machine
end

section
/-! The step and the instruction it runs (spec/10_state.md R24, spec/40_transport_ops.md R132, R140, R150). -/

namespace Sys2Proof.Machine

/-! ### The next outside event, or the blocks go on -/

theorem step_of_inbox_nil (s : State) (h : s.inbox = []) : step s = if s.odpp.busy then odppStep s else btfeStep s := by
  rw [step, stepMachine, h, goOn]

theorem step_of_inbox_cons (s : State) (e : Input) (rest : List Input) (h : s.inbox = e :: rest) :
    step s = serve e { s with inbox := rest } := by
  rw [step, stepMachine, h]

theorem odppStep_idle (s : State) (h : s.odpp.busy = false) : odppStep s = .next s := by
  simp [odppStep, h]

theorem decode_wire_of_length_31 {b : List Byte} {i : Instr} (hlen : b.length = 31) (h : decode (.wire b) = .ok i) :
    i = .cbw (cbwFields b) := by
  rw [decode, decodeWire_of_length_31 b hlen] at h
  exact (Except.ok.inj h).symm

theorem decode_wire_of_length_13 {b : List Byte} {i : Instr} (hlen : b.length = 13) (h : decode (.wire b) = .ok i) :
    i = .csw (cswFields b) := by
  rw [decode, decodeWire_of_length_13 b hlen] at h
  exact (Except.ok.inj h).symm

/-- The status wrapper at the head of the answers is the instruction the step runs (log 13). -/
theorem btfeStep_arriving_csw (s : State) (b : List Byte) (rest : List InAnswer) (hphase : s.cur.btfe.phase = .cswIn)
    (hin : s.cur.port.inAns = .data b :: rest) (hlen : 13 ≤ b.length) :
    btfeStep s = exec (.csw (cswFields (b.take 13)))
      (s.withCur { s.cur with port := { s.cur.port with inAns := rest } }) := by
  have htake : takeAnswer s.cur = { s.cur with port := { s.cur.port with inAns := rest } } := by
    simp only [takeAnswer, hin]
    rfl
  rw [btfeStep_cswIn s hphase, ← htake, exec_arriving_csw s b rest hin hlen]

/-- Settles O14, clause by clause from the equation of the event or of the phase. -/
theorem stepRunsTheDecodedInstruction : Obligations.StepRunsTheDecodedInstruction := by
  refine ⟨?_, ?_, ?_, ?_, ?_, ?_, step_of_inbox_nil, ?_, ?_, ?_, btfeStep_idle, odppStep_idle, ?_, ?_, ?_⟩
  · intro s q rest i hin hdec
    rw [step_of_inbox_cons s _ rest hin, serve, serveBtfe, hdec]
  · intro s q rest e hin hdec
    rw [step_of_inbox_cons s _ rest hin, serve, serveBtfe, hdec]
    rfl
  · intro s q rest i hin hdec
    rw [step_of_inbox_cons s _ rest hin, serve, serveOdpp, hdec]
  · intro s q rest e hin hdec
    rw [step_of_inbox_cons s _ rest hin, serve, serveOdpp, hdec]
    rfl
  · intro s rest hin
    rw [step_of_inbox_cons s _ rest hin, serve]
  · intro s rest hin
    rw [step_of_inbox_cons s _ rest hin, serve]
  · intro s i hphase hdec hlen
    rw [btfeStep, hphase, decode_wire_of_length_31 hlen hdec]
  · intro s b rest i hphase hin hlen hdec
    rw [decode_wire_of_length_13 (List.length_take_of_le hlen) hdec]
    exact btfeStep_arriving_csw s b rest hphase hin hlen
  · intro s hphase _
    rw [btfeStep_cswIn s hphase, exec_statusHandshake_cswIn s hphase]
  · intro s hphase
    rw [btfeStep_clearHalt s hphase, exec_statusHandshake_clearHalt s hphase]
  · intro s hphase
    rw [btfeStep, hphase]
  · intro s hphase
    rw [btfeStep, hphase]

/-- Settles O16: both are the CSW_IN step. -/
theorem arrivingWrapperEqualsHandshake : Obligations.ArrivingWrapperEqualsHandshake := by
  intro s b rest hphase hin hlen
  have hstep := btfeStep_arriving_csw s b rest hphase hin hlen.ge
  rw [List.take_of_length_le hlen.le, btfeStep_cswIn s hphase] at hstep
  rw [exec_statusHandshake_cswIn s hphase, hstep]

/-! ### Words of the opcode table -/

theorem eq_ok_of_toOption {r : Except DecodeError Instr} {i : Instr} (h : r.toOption = some i) : r = .ok i := by
  cases r
  case error => cases h
  case ok j => exact congrArg Except.ok (Option.some.inj h)

/-- The widths a table word can have, and what the decoder reads from each (R114, logs 10 and 11). -/
theorem decodeTableWord_cases {nbits w : Nat} {i : Instr} (h : decodeTableWord nbits w = some i) :
    (nbits = 8 ∧ decode (.btfe ⟨BitVec.ofNat 8 w, List.replicate 16 0, [], [], []⟩) = .ok i) ∨
      (nbits = 248 ∧ i = .cbw (cbwFields (beBytes 31 w))) ∨ (nbits = 104 ∧ i = .csw (cswFields (beBytes 13 w))) := by
  unfold decodeTableWord tableLayout at h
  split_ifs at h with h8 h248 h104
  · exact .inl ⟨h8, eq_ok_of_toOption h⟩
  · simp only [decode, decodeWire_of_length_31 _ (length_beBytes 31 w)] at h
    exact .inr (.inl ⟨h248, (Option.some.inj h).symm⟩)
  · simp only [decode, decodeWire_of_length_13 _ (length_beBytes 13 w)] at h
    exact .inr (.inr ⟨h104, (Option.some.inj h).symm⟩)

/-- Settles O15: the word is placed where the next step takes it, width by width. -/
theorem placedWordRunsNext : Obligations.PlacedWordRunsNext := by
  intro s nbits w i hword
  rcases decodeTableWord_cases hword with ⟨rfl, hdec⟩ | ⟨rfl, rfl⟩ | ⟨rfl, rfl⟩
  · rw [step_of_inbox_cons _ _ s.inbox rfl, serve, serveBtfe, hdec]
    rfl
  · have hplace : s.withFetchWord 248 w =
        { s with
          cur := s.cur.withBtfe { s.cur.btfe with cbwbuf := beBytes 31 w, phase := .cbwOut }
          inbox := .btfeTurn :: s.inbox } := by
      simp [State.withFetchWord, placeTableWord, tableLayout, place, cbwLen]
    rw [hplace, step_of_inbox_cons _ _ s.inbox rfl, serve, btfeStep]
    rfl
  · have hplace : s.withFetchWord 104 w =
        { s with
          cur :=
            { btfe := { s.cur.btfe with phase := .cswIn }
              port := { s.cur.port with inAns := .data (beBytes 13 w) :: s.cur.port.inAns } }
          inbox := .btfeTurn :: s.inbox } := by
      simp [State.withFetchWord, placeTableWord, tableLayout, place, cbwLen]
    rw [hplace, step_of_inbox_cons _ _ s.inbox rfl, serve,
      btfeStep_arriving_csw _ (beBytes 13 w) s.cur.port.inAns rfl rfl (length_beBytes 13 w).ge,
      List.take_of_length_le (length_beBytes 13 w).le]
    rfl

end Sys2Proof.Machine
end

section
/-! The whole next state of each step of an operation, for each answer (spec/40_transport_ops.md R132 to R155,
spec/60_exceptions.md R213). -/

namespace Sys2Proof.Machine

open Safety

/-- Settles O25: the tag drawn and the wrapper built. -/
theorem tagStepBuildsTheWrapper : Obligations.TagStepBuildsTheWrapper := btfeStep_tag

/-- Settles O26: the equation of the call, its errors with phase 2 written out. -/
theorem commandWrapperIsSent : Obligations.CommandWrapperIsSent := by
  intro s r a rest hphase hout
  rw [exec, execCbw, sendCbw_cons s.cur _ a rest hout]
  cases a
  case ok => rfl
  case stall => dsimp only; rw [raiseTransport_eq, outAnswered_btfe, hphase]; rfl
  case err k => dsimp only; rw [raiseTransport_eq, outAnswered_btfe, hphase]; rfl

/-- Settles O27: the equations of the DATA_IN step, its errors with phase 3 written out. -/
theorem dataInStepReadsThePayload : Obligations.DataInStepReadsThePayload := by
  intro s a rest hphase hin
  rw [btfeStep_dataIn s hphase]
  cases a
  case data bytes =>
    dsimp only
    split_ifs with hlen
    · rw [dataInStep_data s.cur bytes rest hin hlen]; rfl
    · rw [dataInStep_short s.cur bytes rest hin (by omega), raiseProtocol_eq, inAnswered_btfe, hphase]; rfl
  case stall => rw [dataInStep_stall s.cur rest hin, raiseTransport_eq, inAnswered_btfe, hphase]; rfl
  case err k => rw [dataInStep_err s.cur k rest hin, raiseTransport_eq, inAnswered_btfe, hphase]; rfl

/-- Settles O28: the equation of the call, its errors with phase 4 written out. -/
theorem dataOutStepSendsThePayload : Obligations.DataOutStepSendsThePayload := by
  intro s a rest hphase hout hlen
  rw [btfeStep_dataOut s hphase, dataOutStep_cons s.cur a rest hout hlen]
  cases a
  case ok => rfl
  case stall => dsimp only; rw [raiseTransport_eq, outAnswered_btfe, hphase]; rfl
  case err k => dsimp only; rw [raiseTransport_eq, outAnswered_btfe, hphase]; rfl

/-- With the checks off every wrapper passes (D6, R255). -/
theorem cswCheckFails_eq_false {b : Btfe} (h : checksOff b.cfg) : cswCheckFails b = false := by
  obtain ⟨hsig, htag, hstatus⟩ := h
  simp [cswCheckFails, hsig, htag, hstatus]

/-- The operation that ends with a status wrapper, the checks off (R141, R162 a). -/
theorem takeCsw_of_checksOff (bytes : List Byte) (ss : Session) (h : checksOff ss.btfe.cfg) :
    takeCsw bytes ss = endOperation (ss.withBtfe (latchFields (cswFields bytes) { ss.btfe with cswbuf := bytes })) := by
  have hpass : cswCheckFails (latchFields (cswFields bytes) { ss.btfe with cswbuf := bytes }) = false :=
    cswCheckFails_eq_false h
  exact if_neg (ne_true_of_eq_false hpass)

/-- Settles O32: the wrapper is latched and no check is on. -/
theorem statusWrapperIsLatched : Obligations.StatusWrapperIsLatched := by
  intro s r hoff
  rw [exec, execCsw, takeCsw_of_checksOff _ (s.cur.log _) hoff, cswFields_cswBytes]
  rfl

/-- Settles O34: the equations of the two steps of the handshake, answer by answer. -/
theorem handshakeAnswers : Obligations.HandshakeAnswers := by
  intro s
  refine ⟨?_, ?_, ?_, ?_, ?_, ?_⟩
  · intro rest hphase hlimit hin
    have hspent : retriesSpent s.cur.btfe = false := by rw [retriesSpent, hlimit]; rfl
    rw [exec_statusHandshake_cswIn s hphase, cswInStep_stall s.cur rest hin, hspent]
    rfl
  · intro rest hphase hclear
    rw [exec_statusHandshake_clearHalt s hphase, clearHaltStep_ok s.cur rest hclear]
    rfl
  · intro k rest hphase hin
    rw [exec_statusHandshake_cswIn s hphase, cswInStep_err s.cur k rest hin, raiseTransport_eq, inAnswered_btfe,
      hphase]
    rfl
  · intro k rest hphase hclear
    rw [exec_statusHandshake_clearHalt s hphase, clearHaltStep_err s.cur k rest hclear,
      raiseTransport_eq, clearAnswered_btfe, hphase]
    rfl
  · intro b rest hphase hoff hin hlen
    rw [exec_statusHandshake_cswIn s hphase, cswInStep_data s.cur b rest hin hlen.ge, List.take_of_length_le hlen.le,
      takeCsw_of_checksOff _ (inAnswered _ _ _ _) hoff]
    rfl
  · intro b rest hphase hin hlen
    rw [exec_statusHandshake_cswIn s hphase, cswInStep_short s.cur b rest hin hlen, raiseProtocol_eq, inAnswered_btfe,
      hphase]
    rfl

/-- Settles O35: a call without an answer has not returned, step by step. -/
theorem unansweredCallWaits : Obligations.UnansweredCallWaits := by
  refine ⟨?_, ?_, ?_, ?_, ?_⟩
  · intro s r hout
    rw [exec, execCbw, sendCbw_nil s.cur _ hout]
    rfl
  · intro s hphase hout
    rw [btfeStep_dataOut s hphase, dataOutStep_nil s.cur hout]
    rfl
  · intro s hphase hin
    rw [btfeStep_dataIn s hphase, dataInStep_nil s.cur hin]
    rfl
  · intro s hphase hin
    rw [exec_statusHandshake_cswIn s hphase, cswInStep_nil s.cur hin]
    rfl
  · intro s hphase hclear
    rw [exec_statusHandshake_clearHalt s hphase, clearHaltStep_nil s.cur hclear]
    rfl

/-! ### The calls of a step -/

/-- A step that waits or makes one call, its call being one the phase allows whatever the answer. -/
theorem trace_of_stay_or_call {α : Type} {b : Btfe} {ss ss' : Session} {call : α → PortCall} {P : α → Prop}
    (h : ss' = ss ∨ ∃ a, ss'.port.trace = ss.port.trace ++ [call a] ∧ P a) (hcall : ∀ a, callOf b (call a)) :
    ss'.port.trace = ss.port.trace ∨ ∃ c, callOf b c ∧ ss'.port.trace = ss.port.trace ++ [c] := by
  rcases h with rfl | ⟨a, htrace, -⟩
  · exact .inl rfl
  · exact .inr ⟨call a, hcall a, htrace⟩

/-- Settles O43: the inversion lemma of each phase names its call; under the invariant the bytes sent are CBWBUF and DBUF. -/
theorem stepMakesAtMostOneCall : Obligations.StepMakesAtMostOneCall := by
  intro s t hinv hstep
  cases hp : s.cur.btfe.phase
  case idle => rw [btfeStep_idle s hp] at hstep; cases hstep; exact .inl rfl
  case tag => rw [btfeStep_tag s hp] at hstep; cases hstep; exact .inl rfl
  case cbwOut =>
    rw [btfeStep_cbwOut s hp hinv.cbwBytes] at hstep
    cases hstep
    exact trace_of_stay_or_call (sendCbw_cases s.cur s.cur.btfe.cbwbuf) fun _ => ⟨rfl, .inl ⟨hp, rfl⟩⟩
  case dataIn =>
    rw [btfeStep_dataIn s hp] at hstep
    cases hstep
    exact trace_of_stay_or_call (dataInStep_cases s.cur) fun _ => ⟨rfl, .inl ⟨hp, rfl⟩⟩
  case dataOut =>
    have hpayload : s.cur.btfe.dbuf.take s.cur.btfe.xlen.toNat = s.cur.btfe.dbuf :=
      List.take_of_length_le (hinv.writing (by simp [hp]) (hinv.dataOut hp)).le
    rw [btfeStep_dataOut s hp] at hstep
    cases hstep
    exact trace_of_stay_or_call (dataOutStep_cases s.cur) fun _ => ⟨rfl, .inr ⟨hp, hpayload⟩⟩
  case decode =>
    obtain ⟨v, -, heq⟩ := decodeStepDoesNotFail s hinv hp
    rw [heq] at hstep
    cases hstep
    exact .inl rfl
  case cswIn =>
    rw [btfeStep_cswIn s hp] at hstep
    cases hstep
    exact trace_of_stay_or_call (cswInStep_cases s.cur) fun _ => ⟨rfl, .inr ⟨hp, rfl⟩⟩
  case clearHalt =>
    rw [btfeStep_clearHalt s hp] at hstep
    cases hstep
    exact trace_of_stay_or_call (clearHaltStep_cases s.cur) fun _ => ⟨rfl, hp⟩

end Sys2Proof.Machine
end

section
/-! The handshake over any number of stalls (spec/40_transport_ops.md R140, R142). -/

namespace Sys2Proof.Machine

open Safety

theorem btfeSteps_succ {s t : State} (n : Nat) (h : btfeStep s = .next t) : btfeSteps (n + 1) s = btfeSteps n t := by
  rw [btfeSteps, h]

/-- The two calls of a round: the read that stalls and the clear that follows (R142 b). -/
def roundCalls (ep : Nat) : List PortCall := [.bulkIn ep 13 .stall, .clearHalt ep .ok]

/-- The session after k rounds, `ins` and `cls` being the answers that are left. -/
def afterRounds (k : Nat) (ss : Session) (ins : List InAnswer) (cls : List ClearAnswer) : Session where
  btfe := { ss.btfe with phase := .cswIn, rounds := ss.btfe.rounds + k }
  port :=
    { ss.port with
      inAns := ins, clearAns := cls
      trace := ss.port.trace ++ (List.replicate k (roundCalls ss.btfe.cfg.epIn)).flatten }

theorem afterRounds_zero (ss : Session) (ins : List InAnswer) (cls : List ClearAnswer) (hphase : ss.btfe.phase = .cswIn)
    (hin : ss.port.inAns = ins) (hclear : ss.port.clearAns = cls) : afterRounds 0 ss ins cls = ss := by
  subst hin hclear
  simp [afterRounds, ← hphase]

/-- One round: a stall with rounds left, and a clear that succeeds. -/
theorem btfeSteps_round (n : Nat) (s : State) (ins : List InAnswer) (cls : List ClearAnswer)
    (hphase : s.cur.btfe.phase = .cswIn) (hlimit : s.cur.btfe.cfg.retryLimit ≠ some s.cur.btfe.rounds)
    (hin : s.cur.port.inAns = .stall :: ins) (hclear : s.cur.port.clearAns = .ok :: cls) :
    btfeSteps (n + 2) s = btfeSteps n (s.withCur (afterRounds 1 s.cur ins cls)) := by
  have hspent : retriesSpent s.cur.btfe = false := beq_eq_false_iff_ne.mpr hlimit
  have hread : btfeStep s = .next (s.withCur ((inAnswered s.cur 13 .stall ins).toPhase .clearHalt)) := by
    rw [btfeStep_cswIn s hphase, cswInStep_stall s.cur ins hin, hspent]
    rfl
  have hcleared : btfeStep (s.withCur ((inAnswered s.cur 13 .stall ins).toPhase .clearHalt)) =
      .next (s.withCur (afterRounds 1 s.cur ins cls)) := by
    rw [btfeStep_clearHalt _ rfl, clearHaltStep_ok _ cls]
    · simp [afterRounds, roundCalls, clearAnswered, inAnswered, Session.log, Session.toPhase, Session.withBtfe,
        State.withCur]
    · exact hclear
  rw [btfeSteps_succ (n + 1) hread, btfeSteps_succ n hcleared]

theorem afterRounds_one_afterRounds (k : Nat) (ss : Session) (ins ins' : List InAnswer) (cls cls' : List ClearAnswer) :
    afterRounds 1 (afterRounds k ss ins' cls') ins cls = afterRounds (k + 1) ss ins cls := by
  simp [afterRounds, List.replicate_succ', Nat.add_assoc]

/-- k rounds in a row, for every k, as long as RETRY_LIMIT is not reached among them. -/
theorem btfeSteps_rounds (k n : Nat) (s : State) (ins : List InAnswer) (cls : List ClearAnswer)
    (hphase : s.cur.btfe.phase = .cswIn)
    (hlimit : ∀ j, j < k → s.cur.btfe.cfg.retryLimit ≠ some (s.cur.btfe.rounds + j))
    (hin : s.cur.port.inAns = List.replicate k .stall ++ ins)
    (hclear : s.cur.port.clearAns = List.replicate k .ok ++ cls) :
    btfeSteps (2 * k + n) s = btfeSteps n (s.withCur (afterRounds k s.cur ins cls)) := by
  induction k generalizing n ins cls with
  | zero =>
    rw [afterRounds_zero s.cur ins cls hphase hin hclear, Nat.mul_zero, Nat.zero_add]
    rfl
  | succ k ih =>
    rw [List.replicate_succ', List.append_assoc] at hin hclear
    have hfirst := ih (n + 2) (.stall :: ins) (.ok :: cls) (fun j hj => hlimit j (by omega)) hin hclear
    rw [show 2 * (k + 1) + n = 2 * k + (n + 2) by omega, hfirst,
      btfeSteps_round n _ ins cls rfl (hlimit k (by omega)) rfl rfl, State.withCur_cur, afterRounds_one_afterRounds]
    rfl

/-- A status wrapper ends the operation, the checks off: the whole next state (R141, R162 a). -/
theorem btfeStep_csw_latched (s : State) (r : CswRecord) (ins : List InAnswer) (hphase : s.cur.btfe.phase = .cswIn)
    (hoff : checksOff s.cur.btfe.cfg) (hin : s.cur.port.inAns = .data (cswBytes r) :: ins) :
    btfeStep s = .next (s.withCur
      { btfe :=
          { s.cur.btfe with
            cswbuf := cswBytes r, cswSig := r.signature, cswTag := r.tag, cswResidue := r.residue
            cswStatus := r.status, cswValid := true, phase := .idle }
        port :=
          { s.cur.port with
            inAns := ins
            trace := s.cur.port.trace ++ [.bulkIn s.cur.btfe.cfg.epIn 13 (.data (cswBytes r))]
            replies := s.cur.port.replies ++ [if s.cur.btfe.dir then .okValue s.cur.btfe.value else .okUnit] } }) := by
  have hlen := length_cswBytes r
  rw [btfeStep_arriving_csw s _ ins hphase hin hlen.ge, List.take_of_length_le hlen.le, cswFields_cswBytes,
    statusWrapperIsLatched]
  · rfl
  · exact hoff

/-- Settles O36: k rounds by induction, then the wrapper. -/
theorem handshakeRecoversFromStalls : Obligations.HandshakeRecoversFromStalls := by
  intro k s r ins cls hphase hlimit hoff hin hclear
  rw [btfeSteps_rounds k 1 s _ cls hphase (fun _ _ => by simp [hlimit]) hin hclear,
    btfeSteps_succ 0 (btfeStep_csw_latched (s.withCur (afterRounds k s.cur _ cls)) r ins rfl hoff rfl)]
  rfl

/-- Settles O37: the state after k rounds is still in CSW_IN. -/
theorem handshakeHasNoRetryLimit : Obligations.HandshakeHasNoRetryLimit := by
  intro k s hphase hlimit hin hclear
  have hrounds := btfeSteps_rounds k 0 s [] [] hphase (fun _ _ => by simp [hlimit]) (by simpa using hin)
    (by simpa using hclear)
  exact ⟨_, hrounds, rfl, rfl, rfl⟩

/-- Settles O38: n rounds reach the limit, and the next stall raises. -/
theorem retryLimitEndsTheHandshake : Obligations.RetryLimitEndsTheHandshake := by
  intro n s ins cls hphase hlimit hzero hin hclear
  rw [List.replicate_succ', List.append_assoc] at hin
  have hrounds := btfeSteps_rounds n 1 s (.stall :: ins) cls hphase
    (fun j hj => by rw [hlimit, hzero, Nat.zero_add]; simpa using hj.ne') hin hclear
  have hspent : retriesSpent (afterRounds n s.cur (.stall :: ins) cls).btfe = true := by
    simp [retriesSpent, afterRounds, hlimit, hzero]
  have hstep : btfeStep (s.withCur (afterRounds n s.cur (.stall :: ins) cls)) =
      .next (s.withCur (raiseTransport (inAnswered (afterRounds n s.cur (.stall :: ins) cls) 13 .stall ins) .stall)) := by
    rw [btfeStep_cswIn _ rfl, cswInStep_stall _ ins rfl, State.withCur_cur, hspent]
    rfl
  rw [hrounds, btfeSteps_succ 0 hstep]
  exact ⟨_, rfl, rfl, rfl, rfl, rfl, rfl, rfl, rfl, rfl⟩

end Sys2Proof.Machine
end

section
/-! Whole operations, from acceptance to the reply (spec/40_transport_ops.md R150 to R159). -/

namespace Sys2Proof.Machine

open Safety

/-- The session once the command wrapper has gone out, the tag being c: the data phase is next (R132). -/
def afterWrapper (c : Word) (ss : Session) (outs : List OutAnswer) : Session where
  btfe :=
    { ss.btfe with
      tag := c
      cbwbuf := encodeCbw ss.btfe.cfg.cbwSignature c ss.btfe.xlen ss.btfe.dir ss.btfe.cmd
      phase := if ss.btfe.dir then .dataIn else .dataOut }
  port :=
    { ss.port with
      outAns := outs
      trace := ss.port.trace ++
        [.bulkOut ss.btfe.cfg.epOut (encodeCbw ss.btfe.cfg.cbwSignature c ss.btfe.xlen ss.btfe.dir ss.btfe.cmd) .ok] }

/-- The first two steps of every operation: the tag is drawn, the wrapper goes out. -/
theorem btfeSteps_to_data_phase (n : Nat) (s : State) (outs : List OutAnswer) (hphase : s.cur.btfe.phase = .tag)
    (hcmd : s.cur.btfe.cmd.length = 16) (hout : s.cur.port.outAns = .ok :: outs) :
    btfeSteps (n + 2) s =
      btfeSteps n { s with tagctr := s.tagctr + 1, cur := afterWrapper s.tagctr s.cur outs } := by
  rw [btfeSteps_succ (n + 1) (btfeStep_tag s hphase)]
  refine btfeSteps_succ n ?_
  rw [btfeStep_cbwOut, sendCbw_cons _ _ .ok outs]
  · rfl
  · exact hout
  · rfl
  · simp [buildCbw, length_encodeCbw, hcmd]

/-- The DATA_IN step and the DECODE step of a read whose bytes all arrive (R150). -/
theorem btfeSteps_read_data (n : Nat) (s : State) (bytes : List Byte) (ins : List InAnswer)
    (hphase : s.cur.btfe.phase = .dataIn) (hlen : bytes.length = s.cur.btfe.xlen.toNat)
    (hshape : bytes.length = shapeSize s.cur.btfe.shape) (hin : s.cur.port.inAns = .data bytes :: ins) :
    btfeSteps (n + 2) s = btfeSteps n (s.withCur
      { btfe :=
          { s.cur.btfe with
            dbuf := bytes, value := decodeFields s.cur.btfe.shape s.cur.btfe.enc bytes, phase := .cswIn, rounds := 0 }
        port :=
          { s.cur.port with
            inAns := ins
            trace := s.cur.port.trace ++ [.bulkIn s.cur.btfe.cfg.epIn s.cur.btfe.xlen.toNat (.data bytes)] } }) := by
  have hread : btfeStep s = .next (s.withCur ((inAnswered s.cur s.cur.btfe.xlen.toNat (.data bytes) ins).withBtfe
      { s.cur.btfe with dbuf := bytes, phase := .decode })) := by
    rw [btfeStep_dataIn s hphase, dataInStep_data s.cur bytes ins hin hlen.ge, List.take_of_length_le hlen.le]
  rw [btfeSteps_succ (n + 1) hread]
  exact btfeSteps_succ n (btfeStep_decode_of_length _ rfl hlen hshape)

/-- Settles O39: acceptance, then the two steps to the data phase, the two of the data, and the wrapper. -/
theorem readCommandRunsToItsValue : Obligations.ReadCommandRunsToItsValue := by
  intro s enc cmd shape bytes r outs ins hidle hfault hoff hcmd hshape hfits hlen hout hin
  have hxlen : (BitVec.ofNat 32 (shapeSize shape)).toNat = shapeSize shape := Nat.mod_eq_of_lt hfits
  refine ⟨_, _, _, requestIsAccepted.1 s enc cmd shape hidle hfault hcmd hshape hfits, rfl,
    Eq.trans (btfeSteps_to_data_phase 3 _ outs rfl hcmd hout)
      (Eq.trans (btfeSteps_read_data 1 _ bytes (.data (cswBytes r) :: ins) rfl (hlen.trans hxlen.symm) hlen hin)
        (btfeSteps_succ 0 (btfeStep_csw_latched _ r ins rfl hoff rfl))),
    decodeValue_of_length shape enc bytes hlen, ?_, rfl, rfl, hfault, rfl, rfl, rfl, rfl, rfl, rfl, rfl, rfl, rfl, rfl, rfl⟩
  simp [afterWrapper, hxlen]

/-- The DATA_OUT step and the handshake of a write whose payload is taken, from its data phase (R155). -/
theorem btfeSteps_write_data (s : State) (r : CswRecord) (outs : List OutAnswer) (ins : List InAnswer)
    (hphase : s.cur.btfe.phase = .dataOut) (hoff : checksOff s.cur.btfe.cfg)
    (hlen : s.cur.btfe.dbuf.length = s.cur.btfe.xlen.toNat) (hdir : s.cur.btfe.dir = false)
    (hout : s.cur.port.outAns = .ok :: outs) (hin : s.cur.port.inAns = .data (cswBytes r) :: ins) :
    btfeSteps 2 s = .next (s.withCur
      { btfe :=
          { s.cur.btfe with
            rounds := 0, cswbuf := cswBytes r, cswSig := r.signature, cswTag := r.tag, cswResidue := r.residue
            cswStatus := r.status, cswValid := true, phase := .idle }
        port :=
          { s.cur.port with
            outAns := outs, inAns := ins
            trace := s.cur.port.trace ++
              [.bulkOut s.cur.btfe.cfg.epOut s.cur.btfe.dbuf .ok,
                .bulkIn s.cur.btfe.cfg.epIn 13 (.data (cswBytes r))]
            replies := s.cur.port.replies ++ [.okUnit] } }) := by
  have hsent : btfeStep s = .next (s.withCur (enterHandshake (outAnswered s.cur s.cur.btfe.dbuf .ok outs))) := by
    rw [btfeStep_dataOut s hphase, dataOutStep_cons s.cur .ok outs hout hlen]
  rw [btfeSteps_succ 1 hsent]
  refine Eq.trans (btfeSteps_succ 0 (btfeStep_csw_latched _ r ins rfl hoff hin)) ?_
  simp [btfeSteps, hdir, outAnswered, enterHandshake, Session.log, Session.withBtfe, State.withCur]

/-- Settles O40: acceptance, the two steps to the data phase, the payload, and the wrapper. -/
theorem writeCommandRunsToItsEnd : Obligations.WriteCommandRunsToItsEnd := by
  intro s enc cmd shape value extra r outs ins hidle hfault hoff hcmd hshape hvalue hfits hout hin
  have hxlen : (BitVec.ofNat 32 (shapeSize shape + extra.length)).toNat = shapeSize shape + extra.length :=
    Nat.mod_eq_of_lt hfits
  have hlen : (encodeValue shape enc value ++ extra).length = shapeSize shape + extra.length := by
    rw [List.length_append, length_encodeValue shape enc value hvalue]
  refine ⟨_, _, requestIsAccepted.2.1 s enc cmd shape value extra hidle hfault hcmd hshape hvalue hfits, rfl,
    Eq.trans (btfeSteps_to_data_phase 2 _ (.ok :: outs) rfl hcmd hout)
      (btfeSteps_write_data _ r outs ins rfl hoff (hlen.trans hxlen.symm) rfl rfl hin),
    ?_, rfl, rfl, hfault, rfl, rfl, rfl, rfl, rfl, rfl, rfl, rfl, rfl, rfl, rfl⟩
  simp [afterWrapper]

/-- Settles O41: a raw write is the write of the empty shape (R158), so its run is that one's. -/
theorem writeCommandRawRunsToItsEnd : Obligations.WriteCommandRawRunsToItsEnd := by
  intro s cmd data r outs ins hidle hfault hoff hcmd hfits hout hin
  have hsize : shapeSize [] + data.length = data.length := Nat.zero_add _
  obtain ⟨a, t, hexec, htag, hsteps, hport, htagctr, hphase, hfault', herr, hvalid, -, -, -, -, -, hparked, hodpp, -⟩ :=
    writeCommandRunsToItsEnd s .be cmd [] [] data r outs ins hidle hfault hoff hcmd rfl rfl (hsize.trans_lt hfits) hout hin
  rw [hsize] at hport
  exact ⟨a, t, hexec, htag, hsteps, hport, htagctr, hphase, hfault', herr, hvalid, hparked, hodpp⟩

end Sys2Proof.Machine
end

section
/-! What an instruction neither reads nor writes (spec/20_memory.md R81, spec/41_dither_pack.md R170). -/

namespace Sys2Proof.Machine

open Safety

/-- A change of the state that an instruction of the ODPP does not see. -/
structure OutsideOdpp (g : State → State) : Prop where
  odpp : ∀ s, (g s).odpp = s.odpp
  withOdpp : ∀ s o, (g s).withOdpp o = g (s.withOdpp o)
  reply : ∀ s r, (g s).odppReply r = g (s.odppReply r)

/-- TAGCTR and the current session replaced: all an instruction of the BTFE writes (R22, R81). -/
def State.withEngine (c : Word) (ss : Session) (s : State) : State := { s with tagctr := c, cur := ss }

/-- A change of the state that an instruction of the BTFE does not see. -/
structure OutsideBtfe (g : State → State) : Prop where
  tagctr : ∀ s, (g s).tagctr = s.tagctr
  cur : ∀ s, (g s).cur = s.cur
  withEngine : ∀ c ss s, (g s).withEngine c ss = g (s.withEngine c ss)

/-- An instruction of the BTFE is a function of TAGCTR and the current session. -/
theorem exec_btfe_eq (i : Instr) (hi : isOdppInstr i = false) :
    ∃ f : Word → Session → Word × Session,
      ∀ s, exec i s = .next (s.withEngine (f s.tagctr s.cur).1 (f s.tagctr s.cur).2) := by
  cases i <;> cases hi
  case cbw r => exact ⟨fun c ss => (c, sendCbw (cbwBytes r) ss), fun _ => rfl⟩
  case csw r =>
    exact ⟨fun c ss => (c, takeCsw (cswBytes r) (ss.log (.bulkIn ss.btfe.cfg.epIn cswLen (.data (cswBytes r))))),
      fun _ => rfl⟩
  case readCommand enc cmd shape => exact ⟨fun c ss => (c, accept (readOperation enc cmd shape) ss), fun _ => rfl⟩
  case writeCommand enc cmd shape value extra =>
    exact ⟨fun c ss => (c, accept (writeOperation enc cmd shape value extra) ss), fun _ => rfl⟩
  case writeCommandRaw cmd data => exact ⟨fun c ss => (c, accept (writeOperation .be cmd [] [] data) ss), fun _ => rfl⟩
  case btfeReserved e => exact ⟨fun c ss => (c, accept illEncoded ss), fun _ => rfl⟩
  case fetchTag => exact ⟨fun c ss => ((fetchTag c).2, ss.withBtfe { ss.btfe with tag := (fetchTag c).1 }), fun _ => rfl⟩
  case encodeValue shape enc value => exact ⟨fun c ss => (c, encodeInto shape enc value ss), fun _ => rfl⟩
  case decodeValue shape enc buf => exact ⟨fun c ss => (c, decodeInto shape enc buf ss), fun _ => rfl⟩
  case statusHandshake => exact ⟨fun c ss => (c, handshakeStep ss), fun _ => rfl⟩

section
variable {g : State → State}

/-- An instruction of the ODPP does the same before and after such a change. -/
theorem OutsideOdpp.exec_comm (hg : OutsideOdpp g) (i : Instr) (hi : isOdppInstr i = true) (s : State) :
    exec i (g s) = andThen (exec i s) g := by
  cases i <;> cases hi
  case matrixInit =>
    simp only [exec, execMatrixInit, refuseOdpp, hg.odpp, hg.withOdpp, hg.reply]
    split_ifs <;> rfl
  case lookUp x y =>
    simp only [exec, execLookUp, refuseOdpp, hg.odpp, hg.reply]
    split_ifs
    · rfl
    · split <;> rfl
  case ditherAndPack w h =>
    simp only [exec, execDitherAndPack, refuseOdpp, hg.odpp, hg.withOdpp, hg.reply]
    split_ifs <;> rfl
  case odppReserved =>
    simp only [exec, execOdppReserved, refuseOdpp, hg.reply]
    rfl

theorem OutsideBtfe.exec_comm (hg : OutsideBtfe g) (i : Instr) (hi : isOdppInstr i = false) (s : State) :
    exec i (g s) = andThen (exec i s) g := by
  obtain ⟨f, hf⟩ := exec_btfe_eq i hi
  rw [hf, hf, hg.tagctr, hg.cur, hg.withEngine]
  rfl

end

/-- A change that is the identity on `s` and is not seen shows what the instruction leaves alone. -/
theorem eq_of_exec_comm {g : State → State} {i : Instr} {s t : State} (hcomm : exec i (g s) = andThen (exec i s) g)
    (hid : g s = s) (h : exec i s = .next t) : t = g t := by
  rw [hid, h] at hcomm
  exact Host.Outcome.next.inj hcomm

/-- The shape in which the obligations say that an instruction commutes with a change. -/
theorem outcome_of_exec_comm {g : State → State} {i : Instr} {s : State} (hcomm : exec i (g s) = andThen (exec i s) g) :
    match exec i s with
    | .next t => exec i (g s) = .next (g t)
    | .fault f => exec i (g s) = .fault f
    | .refused f => exec i (g s) = .refused f := by
  rw [hcomm]
  cases exec i s <;> rfl

/-- Everything but the ODPP replaced. -/
def State.withBtfeSide (c : Word) (ss : Session) (ps : List Session) (es : List Input) (s : State) : State :=
  { s with tagctr := c, cur := ss, parked := ps, inbox := es }

/-- The ODPP, its replies and the events replaced. -/
def State.withOdppSide (o : Odpp) (rs : List OdppReply) (es : List Input) (s : State) : State :=
  { s with odpp := o, odppReplies := rs, inbox := es }

/-- The other sessions replaced. -/
def State.withParked (ps : List Session) (s : State) : State := { s with parked := ps }

theorem outsideOdpp_withBtfeSide (c : Word) (ss : Session) (ps : List Session) (es : List Input) :
    OutsideOdpp (State.withBtfeSide c ss ps es) := ⟨fun _ => rfl, fun _ _ => rfl, fun _ _ => rfl⟩

theorem outsideBtfe_withOdppSide (o : Odpp) (rs : List OdppReply) (es : List Input) :
    OutsideBtfe (State.withOdppSide o rs es) := ⟨fun _ => rfl, fun _ => rfl, fun _ _ _ => rfl⟩

theorem outsideOdpp_withParked (ps : List Session) : OutsideOdpp (State.withParked ps) :=
  ⟨fun _ => rfl, fun _ _ => rfl, fun _ _ => rfl⟩

theorem outsideBtfe_withParked (ps : List Session) : OutsideBtfe (State.withParked ps) :=
  ⟨fun _ => rfl, fun _ => rfl, fun _ _ _ => rfl⟩

theorem exec_withParked (ps : List Session) (i : Instr) (s : State) :
    exec i (s.withParked ps) = andThen (exec i s) (State.withParked ps) := by
  cases hi : isOdppInstr i
  · exact (outsideBtfe_withParked ps).exec_comm i hi s
  · exact (outsideOdpp_withParked ps).exec_comm i hi s

theorem exec_odpp_frame {i : Instr} {s t : State} (hi : isOdppInstr i = true) (h : exec i s = .next t) :
    t = t.withBtfeSide s.tagctr s.cur s.parked s.inbox :=
  eq_of_exec_comm ((outsideOdpp_withBtfeSide _ _ _ _).exec_comm i hi s) rfl h

theorem exec_btfe_frame {i : Instr} {s t : State} (hi : isOdppInstr i = false) (h : exec i s = .next t) :
    t = t.withOdppSide s.odpp s.odppReplies s.inbox :=
  eq_of_exec_comm ((outsideBtfe_withOdppSide _ _ _).exec_comm i hi s) rfl h

theorem exec_parked {i : Instr} {s t : State} (h : exec i s = .next t) : t.parked = s.parked := by
  have hframe := eq_of_exec_comm (exec_withParked s.parked i s) rfl h
  rw [hframe]
  rfl

/-- Settles O47: no instruction sees the other sessions replaced. -/
theorem sessionsShareOnlyTheTagCounter : Obligations.SessionsShareOnlyTheTagCounter := by
  intro i s ps
  have hcomm := outcome_of_exec_comm (exec_withParked ps i s)
  cases h : exec i s <;> rw [h] at hcomm
  case next t => exact ⟨exec_parked h, hcomm⟩
  case fault => exact hcomm
  case refused => exact hcomm

/-- Settles O48: no instruction of one block sees the other block replaced. -/
theorem blocksShareNoState : Obligations.BlocksShareNoState := by
  refine ⟨fun i s t h => ?_, fun i s c ss ps es hi => ?_, fun i s o rs es hi => ?_⟩
  · cases hi : isOdppInstr i
    · have hparked := exec_parked h
      rw [exec_btfe_frame hi h, if_neg Bool.false_ne_true]
      exact ⟨rfl, rfl, rfl, hparked⟩
    · rw [exec_odpp_frame hi h, if_pos rfl]
      exact ⟨rfl, rfl, rfl, rfl⟩
  · exact outcome_of_exec_comm ((outsideOdpp_withBtfeSide c ss ps es).exec_comm i hi s)
  · exact outcome_of_exec_comm ((outsideBtfe_withOdppSide o rs es).exec_comm i hi s)

end Sys2Proof.Machine
end

section
/-! The resets and the requester's reads (spec/70_reset_and_hazards.md R240, spec/42_boundary_host.md R197). -/

namespace Sys2Proof.Machine

/-- An entry of the table as MATRIX_INIT and a ROM table lay it out (R171, log 26). -/
theorem read_table (c : OdppConfig) (a : Nat) (ha : a < c.side * c.side) :
    Memory.read (Memory.ofBytesFrom 0 (tableBytes c)) a = some (c.table.getD a 0) := by
  have hread := Memory.read_ofBytesFrom 0 (tableBytes c) a
  rw [Nat.zero_add] at hread
  rw [hread]
  simp [tableBytes, ha]

/-- Settles O49: what `globalReset` writes, session by session and in the ODPP. -/
theorem globalResetPutsTheBlocksIntoReset : Obligations.GlobalResetPutsTheBlocksIntoReset := by
  intro s rest hin
  refine ⟨globalReset { s with inbox := rest }, ?_, rfl, rfl, rfl, ?_, rfl, ?_, ?_, rfl, fun hrom a => ?_,
    fun hrom a ha => ?_, rfl, rfl, rfl, rfl, rfl⟩
  · rw [step_of_inbox_cons s _ rest hin, serve]
  · simp [globalReset, resetInstance]
  · simp [globalReset, resetInstance, Btfe.reset]
  · rintro p (rfl | hp)
    · exact ⟨rfl, rfl, rfl, rfl, rfl, rfl⟩
    · obtain ⟨p', -, rfl⟩ := List.mem_map.mp hp
      exact ⟨rfl, rfl, rfl, rfl, rfl, rfl⟩
  · simp [globalReset, resetOdpp, hrom, Memory.read]
  · have hthresh : (globalReset { s with inbox := rest }).odpp.thresh = Memory.ofBytesFrom 0 (tableBytes s.odpp.cfg) :=
      if_pos hrom
    rw [hthresh, read_table s.odpp.cfg a ha]

/-- Settles O50: what `resetSession` writes. -/
theorem sessionResetClearsTheInstance : Obligations.SessionResetClearsTheInstance := by
  intro s rest hin
  rw [step_of_inbox_cons s _ rest hin]
  rfl

/-! ### The fields of the error register -/

theorem errWord_kind (b : Btfe) : (errWord b).extractLsb' 0 2 = b.errKind := by
  rw [errWord, BitVec.extractLsb'_append_eq_of_add_le (by decide), BitVec.extractLsb'_append_eq_of_add_le (by decide),
    BitVec.extractLsb'_eq_self]

theorem errWord_sub (b : Btfe) : (errWord b).extractLsb' 2 3 = b.errSub := by
  rw [errWord, BitVec.extractLsb'_append_eq_of_add_le (by decide), BitVec.extractLsb'_append_eq_of_le (by decide),
    BitVec.extractLsb'_eq_self]

theorem errWord_phase (b : Btfe) : (errWord b).extractLsb' 5 3 = b.errPhase := by
  rw [errWord, BitVec.extractLsb'_append_eq_of_le (by decide), BitVec.extractLsb'_eq_self]

/-- Settles O51: the two reads, and the fields of the error register. -/
theorem registersAreReadAtThePort : Obligations.RegistersAreReadAtThePort := by
  refine ⟨fun s rest hin => ?_, fun s rest hin => ⟨errWord s.cur.btfe, ?_, errWord_kind _,
    errWord_sub _, errWord_phase _⟩⟩
  · rw [step_of_inbox_cons s _ rest hin, serve, readCsw]
    dsimp only
    split_ifs <;> rfl
  · rw [step_of_inbox_cons s _ rest hin]
    rfl

end Sys2Proof.Machine
end

section
/-! The requests at the ODPP port and the frame memories (spec/41_dither_pack.md R171 to R175, spec/20_memory.md R83). -/

namespace Sys2Proof.Machine

open Safety

/-! ### MATRIX_INIT and LOOK_UP -/

/-- An entry of the table has its address below the side squared (R66). -/
theorem entry_lt {side r c : Nat} (hr : r < side) (hc : c < side) : r * side + c < side * side := by
  nlinarith

/-- Settles O52: the three branches of MATRIX_INIT, and the entries of the table it writes. -/
theorem matrixInitWritesTheTableOnce : Obligations.MatrixInitWritesTheTableOnce := by
  refine ⟨decode_matrixInitHead, fun s hbusy hready => ?_, fun s hbusy hready => ?_, fun s hbusy => ?_⟩
  · refine ⟨Memory.ofBytesFrom 0 (tableBytes s.odpp.cfg), ?_, ?_, Memory.ofBytesFrom_wf _ _, fun r c hr hc => ?_⟩
    · simp [exec, execMatrixInit, hbusy, hready]
    · rw [Memory.length_ofBytesFrom, length_tableBytes]
    · exact read_table s.odpp.cfg _ (entry_lt hr hc)
  · simp [exec, execMatrixInit, hbusy, hready]
  · simp [exec, execMatrixInit, hbusy, refuseOdpp]

theorem exec_lookUp_ready (s : State) (x y : Word) (b : Byte) (hready : s.odpp.matrixReady = true)
    (hread : threshold s.odpp x.toNat y.toNat = some b) :
    exec (.lookUp x y) s = .next (s.odppReply (.threshold b)) := by
  simp [exec, execLookUp, hready, hread]

theorem exec_lookUp_notReady (s : State) (x y : Word) (hready : s.odpp.matrixReady = false) :
    exec (.lookUp x y) s = .next (s.odppReply (.refused .notReady)) := by
  simp [exec, execLookUp, hready, refuseOdpp]

/-- The table's byte at a threshold's address (R173, log 26). -/
theorem getD_tableBytes (c : OdppConfig) (x y : Nat) :
    (tableBytes c).getD (thresholdAddr c x y) 0 = c.table.getD (thresholdAddr c x y) 0 := by
  simp [tableBytes, thresholdAddr_lt c x y]

/-- Settles O53: the entry read is the answer, and under the invariant it is the parameter table's. -/
theorem lookUpReturnsTheEntry : Obligations.LookUpReturnsTheEntry := by
  refine ⟨decode_lookUpHead, fun s x y b hready hread => exec_lookUp_ready s x y b hready hread,
    fun s x y hinv hready => ?_, exec_lookUp_notReady⟩
  rw [exec_lookUp_ready s x y _ hready (threshold_of_inv s.odpp hinv hready _ _), getD_tableBytes]
  rfl

/-- Adding the side to a coordinate, modulo 2^32, does not move it in the table (R174): the side divides 2^32, or is a
multiple of it. -/
theorem toNat_add_side_mod (c : OdppConfig) (x : Word) : (x + BitVec.ofNat 32 c.side).toNat % c.side = x.toNat % c.side := by
  by_cases hsmall : c.sideLog2 ≤ 32
  · have hdvd : c.side ∣ 2 ^ 32 := Nat.pow_dvd_pow 2 hsmall
    rw [BitVec.toNat_add, BitVec.toNat_ofNat, Nat.mod_mod_of_dvd _ hdvd, Nat.add_mod, Nat.mod_mod_of_dvd _ hdvd,
      Nat.mod_self, Nat.add_zero, Nat.mod_mod]
  · have hdvd : 2 ^ 32 ∣ c.side := Nat.pow_dvd_pow 2 (by omega)
    have hzero : BitVec.ofNat 32 c.side = 0 := BitVec.eq_of_toNat_eq (Nat.mod_eq_zero_of_dvd hdvd)
    rw [hzero, add_zero]

/-- Two coordinates at the same table entry are looked up alike. -/
theorem exec_lookUp_congr (s : State) (x y x' y' : Word)
    (h : thresholdAddr s.odpp.cfg x.toNat y.toNat = thresholdAddr s.odpp.cfg x'.toNat y'.toNat) :
    exec (.lookUp x y) s = exec (.lookUp x' y') s := by
  simp only [exec, execLookUp, threshold, h]

/-- Settles O54, by arithmetic on the two coordinates. -/
theorem lookUpIsPeriodic : Obligations.LookUpIsPeriodic := by
  refine fun s x y => ⟨exec_lookUp_congr s _ _ _ _ ?_, exec_lookUp_congr s _ _ _ _ ?_⟩ <;>
    simp only [thresholdAddr, toNat_add_side_mod]

/-! ### DITHER_AND_PACK: acceptance -/

/-- Settles O55: the four branches of acceptance in their order, and what is left of PACKED. -/
theorem ditherIsAcceptedOrRefused : Obligations.DitherIsAcceptedOrRefused := by
  intro s w h good
  have hgood : dimensionsOk w h s.odpp.gray = true ↔ good := dimensionsOk_iff w h s.odpp.gray
  refine ⟨fun hbusy => ?_, fun hbusy hready => ?_, fun hbusy hready hbad => ?_, fun hbusy hready hok => ⟨?_, fun a => ?_⟩⟩
  · simp [exec, execDitherAndPack, hbusy, refuseOdpp]
  · simp [exec, execDitherAndPack, hbusy, hready, refuseOdpp]
  · simp [exec, execDitherAndPack, hbusy, hready, mt hgood.mp hbad, refuseOdpp]
  · simp [exec, execDitherAndPack, hbusy, hready, hgood.mpr hok, latchFrame]
  · split_ifs with ha
    · exact Memory.read_below _ _ _ ha
    · exact Memory.read_below_of_le _ _ _ (by omega)

/-- Settles O59: the reserved code has one branch. -/
theorem reservedOdppCodeIsRefused : Obligations.ReservedOdppCodeIsRefused := fun _ => rfl

/-! ### GRAY and PACKED at the port -/

/-- Settles O60: the branches on ODPP_BUSY of the two events. -/
theorem frameMemoriesAtThePort : Obligations.FrameMemoriesAtThePort := by
  refine ⟨fun s rest g hin => ?_, fun s rest a hin => ?_⟩ <;> rw [step_of_inbox_cons s _ rest hin]
  · split_ifs with hbusy
    · exact if_pos hbusy
    · refine ⟨Memory.ofBytesFrom 0 g, if_neg hbusy, Memory.holdsFrame_ofBytes g, fun i => ?_⟩
      simpa using Memory.read_ofBytesFrom 0 g i
  · split_ifs with hbusy
    · exact if_pos hbusy
    · rw [serve, readPacked, if_neg hbusy]
      cases Memory.read s.odpp.packed a <;> rfl

end Sys2Proof.Machine
end

section
/-! The pixels of a frame (spec/41_dither_pack.md R176 to R179, spec/10_state.md R33, R34). -/

namespace Sys2Proof.Machine

open Safety

/-- The parameter table's threshold for pixel p of the frame in progress (R176). -/
def pixelThreshold (o : Odpp) (p : Nat) : Byte :=
  (tableBytes o.cfg).getD (thresholdAddr o.cfg (p % o.width.toNat) (p / o.width.toNat)) 0

/-- The state with the bit of pixel PIX written (R176). -/
def writePixel (white : Bool) (s : State) : State := s.withOdpp (putPixel s.odpp s.odpp.pix.toNat white)

/-- Under the invariant the pixel step finds its sample and its threshold, and goes on. -/
theorem odppStep_busy (s : State) (hinv : OdppInv s.odpp) (hbusy : s.odpp.busy = true) :
    ∃ sample, Memory.read s.odpp.gray s.odpp.pix.toNat = some sample ∧
      threshold s.odpp (s.odpp.pix.toNat % s.odpp.width.toNat) (s.odpp.pix.toNat / s.odpp.width.toNat) =
        some (pixelThreshold s.odpp s.odpp.pix.toNat) ∧
      odppStep s =
        .next (advancePixel (writePixel (isWhite sample (pixelThreshold s.odpp s.odpp.pix.toNat)) s)) := by
  obtain ⟨hready, -, -, -, hpix, hframe⟩ := hinv.running hbusy
  obtain ⟨sample, hsample⟩ := Memory.read_frame _ _ _ hframe hpix
  have hthr := threshold_of_inv s.odpp hinv hready (s.odpp.pix.toNat % s.odpp.width.toNat)
    (s.odpp.pix.toNat / s.odpp.width.toNat)
  refine ⟨sample, hsample, hthr, ?_⟩
  rw [odppStep, if_pos hbusy, pixelStep]
  simp only [hsample, hthr]
  rfl

/-- Settles O58: a look-up and a pixel find what they read, and the other instructions read nothing. -/
theorem odppHasNoErrorState : Obligations.OdppHasNoErrorState := by
  refine ⟨fun i s hi hinv => ?_, fun s hinv => ?_⟩
  · cases i <;> simp only [isOdppInstr, Bool.false_eq_true] at hi
    case matrixInit =>
      simp only [exec, execMatrixInit]
      split_ifs <;> exact ⟨_, rfl⟩
    case lookUp x y =>
      cases hready : s.odpp.matrixReady
      · exact ⟨_, exec_lookUp_notReady s x y hready⟩
      · exact ⟨_, exec_lookUp_ready s x y _ hready (threshold_of_inv s.odpp hinv hready _ _)⟩
    case ditherAndPack w h =>
      simp only [exec, execDitherAndPack]
      split_ifs <;> exact ⟨_, rfl⟩
    case odppReserved => exact ⟨_, rfl⟩
  · cases hbusy : s.odpp.busy
    · exact ⟨_, odppStep_idle s hbusy⟩
    · obtain ⟨sample, -, -, hstep⟩ := odppStep_busy s hinv hbusy
      exact ⟨_, hstep⟩

/-! ### One pixel -/

/-- The end of a pixel step leaves the memories, the dimensions and the table alone. -/
theorem advancePixel_frame (s : State) :
    (advancePixel s).odpp.packed = s.odpp.packed ∧ (advancePixel s).odpp.gray = s.odpp.gray ∧
      (advancePixel s).odpp.thresh = s.odpp.thresh ∧ (advancePixel s).odpp.matrixReady = s.odpp.matrixReady ∧
      (advancePixel s).odpp.width = s.odpp.width ∧ (advancePixel s).odpp.height = s.odpp.height ∧
      (advancePixel s).odpp.cfg = s.odpp.cfg := by
  rcases advancePixel_cases s with h | h <;> rw [h] <;> exact ⟨rfl, rfl, rfl, rfl, rfl, rfl, rfl⟩

/-- The byte of the pixel after its bit is written: that bit, and the others as they were (R70, R176). -/
theorem read_putPixel (o : Odpp) (p : Nat) (white : Bool) :
    ∃ v, Memory.read (putPixel o p white).packed (p / 8) = some v ∧ v.getLsbD (p % 8) = white ∧
      ∀ old i, Memory.read o.packed (p / 8) = some old → i < 8 → i ≠ p % 8 → v.getLsbD i = old.getLsbD i := by
  obtain ⟨v, hread, hbits⟩ := Memory.read_setBit_same o.packed (p / 8) (p % 8) white
  refine ⟨v, hread, ?_, fun old i hold hi hne => ?_⟩
  · rw [hbits (p % 8) (by omega), if_pos rfl]
  · rw [hbits i hi, if_neg hne, Memory.byteAt_of_read hold]

/-- Settles O57: the bit by `read_putPixel`, and PIX or ODPP_BUSY by whether pixels are left. -/
theorem pixelStepWritesOneBit : Obligations.PixelStepWritesOneBit := by
  intro s hinv hbusy
  obtain ⟨sample, hsample, hthr, hstep⟩ := odppStep_busy s hinv hbusy
  generalize hwhite : isWhite sample (pixelThreshold s.odpp s.odpp.pix.toNat) = white at hstep
  obtain ⟨v, hread, hbit, hothers⟩ := read_putPixel s.odpp s.odpp.pix.toNat white
  obtain ⟨hpacked, hgray, hthresh, hready, hwidth, hheight, hcfg⟩ := advancePixel_frame (writePixel white s)
  refine ⟨_, sample, _, v, hstep, hsample, hthr, hpacked ▸ hread, hbit.trans hwhite.symm, hothers, fun a ha => ?_, hgray,
    hthresh, hready.trans (hinv.running hbusy).1, hwidth, hheight, hcfg, ?_⟩
  · rw [hpacked]
    exact Memory.read_setBit_other _ _ _ _ _ ha
  · split_ifs with hmore
    · rw [advancePixel_more (writePixel white s) hmore]
      exact ⟨toNat_pix_succ s.odpp hmore, hbusy, rfl⟩
    · rw [advancePixel_last (writePixel white s) hmore]
      exact ⟨rfl, rfl⟩

/-! ### All pixels of a frame -/

/-- In the first p pixels of the frame `g`, every bit of PACKED is the one R176 asks for. -/
def PacksUpTo (g : List Byte) (o : Odpp) (p : Nat) : Prop :=
  ∀ q, q < p → ∃ v, Memory.read o.packed (q / 8) = some v ∧
    v.getLsbD (q % 8) = whiteAt g (tableBytes o.cfg) o.cfg o.width.toNat q

theorem PacksUpTo.succ {g : List Byte} {o : Odpp} {p : Nat} (h : PacksUpTo g o p) :
    PacksUpTo g (putPixel o p (whiteAt g (tableBytes o.cfg) o.cfg o.width.toNat p)) (p + 1) := by
  intro q hq
  obtain ⟨v, hread, hbit, hothers⟩ := read_putPixel o p (whiteAt g (tableBytes o.cfg) o.cfg o.width.toNat p)
  rcases Nat.lt_succ_iff_lt_or_eq.mp hq with hlt | rfl
  · obtain ⟨old, hold, holdbit⟩ := h q hlt
    by_cases hbyte : q / 8 = p / 8
    · refine ⟨v, hbyte ▸ hread, ?_⟩
      rw [hothers old (q % 8) (hbyte ▸ hold) (by omega) (by omega), holdbit]
      rfl
    · exact ⟨old, (Memory.read_setBit_other _ _ _ _ _ hbyte).trans hold, holdbit⟩
  · exact ⟨v, hread, hbit⟩

/-- Under the invariant a pixel step of the frame `g` writes the bit R176 asks for. -/
theorem odppStep_frame_pixel (g : List Byte) (s : State) (hinv : OdppInv s.odpp) (hbusy : s.odpp.busy = true)
    (hgray : s.odpp.gray = Memory.ofBytesFrom 0 g) :
    odppStep s = .next (advancePixel (writePixel
      (whiteAt g (tableBytes s.odpp.cfg) s.odpp.cfg s.odpp.width.toNat s.odpp.pix.toNat) s)) := by
  obtain ⟨sample, hsample, -, hstep⟩ := odppStep_busy s hinv hbusy
  have hg : g[s.odpp.pix.toNat]? = some sample := by
    rw [← hsample, hgray, ← Memory.read_ofBytesFrom 0 g, Nat.zero_add]
  rw [hstep, whiteAt, List.getD_eq_getElem?_getD (l := g), hg]
  rfl

/-- The state in which the frame of `s` is done: PACKED holds `m`, the requester has its bytes. -/
def frameDone (s : State) (m : Memory) (pix : BitVec 64) : State :=
  (s.withOdpp { s.odpp with packed := m, pix := pix, busy := false }).odppReply
    (.packed (Memory.bytes m (pixels s.odpp / 8)))

/-- From pixel PIX the rest of the frame takes one step for each pixel that is left. -/
theorem odppSteps_rest (g : List Byte) (k : Nat) (s : State) (hinv : OdppInv s.odpp) (hbusy : s.odpp.busy = true)
    (hgray : s.odpp.gray = Memory.ofBytesFrom 0 g) (hleft : s.odpp.pix.toNat + k = pixels s.odpp)
    (hpacks : PacksUpTo g s.odpp s.odpp.pix.toNat) :
    ∃ m pix, odppSteps k s = .next (frameDone s m pix) ∧ PacksUpTo g (frameDone s m pix).odpp (pixels s.odpp) := by
  induction k generalizing s with
  | zero =>
    obtain ⟨-, -, -, -, hpix, -⟩ := hinv.running hbusy
    omega
  | succ k ih =>
    have hstep := odppStep_frame_pixel g s hinv hbusy hgray
    have hnext := OdppInv.step hinv hstep
    have hsucc := hpacks.succ
    rw [odppSteps, hstep]
    by_cases hmore : s.odpp.pix.toNat + 1 < pixels s.odpp
    · have hpix : (s.odpp.pix + 1).toNat = s.odpp.pix.toNat + 1 := toNat_pix_succ s.odpp hmore
      rw [advancePixel_more (writePixel _ s) hmore] at hnext ⊢
      rw [← hpix] at hsucc
      refine ih _ hnext hbusy hgray ?_ hsucc
      show (s.odpp.pix + 1).toNat + k = pixels s.odpp
      omega
    · rw [advancePixel_last (writePixel _ s) hmore, show k = 0 by omega]
      refine ⟨_, _, rfl, ?_⟩
      rw [← hleft, show k = 0 by omega]
      exact hsucc

theorem exec_ditherAndPack_accepted (s : State) (w h : Word) (hbusy : s.odpp.busy = false)
    (hready : s.odpp.matrixReady = true) (hdims : dimensionsOk w h s.odpp.gray = true) :
    exec (.ditherAndPack w h) s = .next (s.withOdpp (latchFrame w h s.odpp)) := by
  simp [exec, execDitherAndPack, hbusy, hready, hdims]

/-- The bytes returned are those PACKED holds (R176, R178). -/
theorem PacksUpTo.bytes {g : List Byte} {o : Odpp} {n : Nat} (h : PacksUpTo g o n) (hn : n % 8 = 0) :
    (∀ p, p < n → ((Memory.bytes o.packed (n / 8)).getD (p / 8) 0).getLsbD (p % 8) =
      whiteAt g (tableBytes o.cfg) o.cfg o.width.toNat p) ∧
    ∀ j, j < n / 8 → Memory.read o.packed j = (Memory.bytes o.packed (n / 8))[j]? := by
  refine ⟨fun p hp => ?_, fun j hj => ?_⟩
  · obtain ⟨v, hread, hbit⟩ := h p hp
    have hbyte : (Memory.bytes o.packed (n / 8)).getD (p / 8) 0 = v := by
      simp [Memory.bytes, show p / 8 < n / 8 by omega, Memory.byteAt_of_read hread]
    rw [hbyte, hbit]
  · obtain ⟨v, hread, -⟩ := h (8 * j) (by omega)
    rw [Nat.mul_div_cancel_left j (by decide)] at hread
    simp [Memory.bytes, hj, hread, Memory.byteAt_of_read hread]

/-- Settles O56: acceptance, then the loop over the pixels from pixel 0. -/
theorem ditherPacksTheFrame : Obligations.DitherPacksTheFrame := by
  refine ⟨decode_ditherHead, fun s w h g hinv hbusy hready hw hh hmod hlen hgray => ?_⟩
  have hdims : dimensionsOk w h s.odpp.gray = true := by
    refine (dimensionsOk_iff w h _).mpr ⟨hw, hh, hmod, ?_⟩
    rw [hgray, ← hlen]
    exact Memory.holdsFrame_ofBytes g
  obtain ⟨m, pix, hsteps, hpacks⟩ := odppSteps_rest g (w.toNat * h.toNat) (s.withOdpp (latchFrame w h s.odpp))
    (hinv.acceptFrame hready w h hdims) rfl hgray (Nat.zero_add _) (fun q hq => absurd hq (Nat.not_lt_zero q))
  obtain ⟨hbits, hbytes⟩ := hpacks.bytes hmod
  have hcount : (Memory.bytes m (w.toNat * h.toNat / 8)).length = w.toNat * h.toNat / 8 := by simp [Memory.bytes]
  refine ⟨_, _, Memory.bytes m (w.toNat * h.toNat / 8), exec_ditherAndPack_accepted s w h hbusy hready hdims, hsteps, rfl,
    rfl, rfl, rfl, rfl, hready, rfl, rfl, hcount, hbits, fun j hj => hbytes j (hj.trans_eq hcount), rfl, rfl, rfl, rfl⟩

end Sys2Proof.Machine
end

section
/-! The reset state (spec/10_state.md R38). -/

namespace Sys2Proof.Machine

/-- Settles O1: each register of `State.reset`. -/
theorem resetLeavesTheStatedValues : Obligations.ResetLeavesTheStatedValues :=
  ⟨rfl, rfl, rfl, rfl, rfl, rfl, rfl, rfl, rfl, rfl, fun _ => rfl⟩

end Sys2Proof.Machine
end
